-- ==== Sys2Proof/Word.lean ====
section
/-! DEFINITION. The bit widths of the block (R10, R79): plain bit-vector types, nothing else. -/

namespace Sys2Proof

/-- A transaction word (R79): `op` in bits 15..12, the payload in bits 11..0. -/
abbrev Word := BitVec 16

/-- A byte to encode, the shift register, the accumulator (R10). -/
abbrev Byte := BitVec 8

/-- The 3-bit code of a symbol on a port (R9, R70). -/
abbrev Code := BitVec 3

/-- A 2-bit data value (half-nibble, chunk), 0..3 (R10, R73). -/
abbrev Value := BitVec 2

end Sys2Proof
end

