-- ==== Sys2Proof/Config.lean ====
section
/-! DEFINITION. The symbol alphabet (R20 to R23), the four parameters of an instance (R6 to R9) and the free values. -/

namespace Sys2Proof

/-- The 8-valued symbol type (R20): the closed symbol, five data symbols in cycle order (R21), two markers (R22). -/
inductive Symbol where
  | closed
  | d0
  | d1
  | d2
  | d3
  | d4
  | mark1
  | mark2
  deriving DecidableEq, Repr

/-- The two marker symbols (R22), the choices of `ENC_MARKER` (R7). -/
inductive Marker where
  | mark1
  | mark2
  deriving DecidableEq, Repr

/-- `SYMBOL_CODE` (R9): the code of every symbol but `Closed`, whose code `000` is fixed. -/
structure SymbolCode where
  d0 : Code
  d1 : Code
  d2 : Code
  d3 : Code
  d4 : Code
  mark1 : Code
  mark2 : Code
  deriving DecidableEq, Repr

/-- The parameters of one instance (R36): no operation writes them. -/
structure Config where
  /-- `DEC_BUDGET` (R6), an integer in 1..15. -/
  decBudget : Nat
  /-- `ENC_MARKER` (R7). -/
  encMarker : Marker
  /-- `IDLE_COUNTS` (R8). -/
  idleCounts : Bool
  /-- `SYMBOL_CODE` (R9). -/
  symbolCode : SymbolCode
  deriving DecidableEq, Repr

/-- The code table of R70 (with Mark1 = White and Mark2 = Yellow, C1).
PRESUMED by the spec itself for the colour patterns (G1), log entry 6. Unsafe. -/
def SymbolCode.standard : SymbolCode where
  d0 := 0b001#3
  d1 := 0b010#3
  d2 := 0b011#3
  d3 := 0b100#3
  d4 := 0b101#3
  mark1 := 0b111#3
  mark2 := 0b110#3

/-- The default of every parameter (R6 to R9). -/
def Config.standard : Config where
  decBudget := 8
  encMarker := .mark1
  idleCounts := false
  symbolCode := SymbolCode.standard

/-- Free value: `enc_out_sym` while `enc_out_valid = 0` (R88, U4). Log entry 7. Safe. -/
opaque Config.freeEncOutSym : Nat → Code

/-- Free value: `dec_out_status` while `dec_out_valid = 0` (R88, U4). Log entry 7. Safe. -/
opaque Config.freeDecOutStatus : Nat → BitVec 2

/-- Free value: `dec_out_nslots` while `dec_out_valid = 0` (R88, U4). Log entry 7. Safe. -/
opaque Config.freeDecOutNslots : Nat → BitVec 4

/-- Free value: `dec_out_byte` while `dec_out_valid = 0` (R88, U4). Log entry 7. Safe. -/
opaque Config.freeDecOutByte : Nat → Byte

end Sys2Proof
end

