-- ==== Sys2Proof/Syntax.lean ====
section
/-! DEFINITION. The 12 transactions of R80, one constructor per row of spec/opcode_table.json. -/

namespace Sys2Proof

/-- A transaction (R79, R80). Symbol operands are codes: `SYMBOL_CODE` gives them their symbols in the meaning. -/
inductive Instr where
  /-- `ENC_BYTE b` (R131). -/
  | encByte (b : Byte)
  /-- `ENC_SYM` (R132). -/
  | encSym
  /-- `ENC_SET_PREV s` (R133). -/
  | encSetPrev (s : Code)
  /-- `DEC_SYM s` (R171). -/
  | decSym (s : Code)
  /-- `DEC_FLUSH` (R172). -/
  | decFlush
  /-- `DEC_SET_PREV s` (R173). -/
  | decSetPrev (s : Code)
  /-- `DEC_RESULT` (R174). -/
  | decResult
  /-- `ROM_OFFSET p` (R119). -/
  | romOffset (p : Code)
  /-- `ROM_EMIT v, p` (R120). -/
  | romEmit (v : Value) (p : Code)
  /-- `OBSERVE i, p` (R154): incoming, previous. -/
  | observe (i p : Code)
  /-- `FMD_CLASSIFY s` (R153). -/
  | fmdClassify (s : Code)
  /-- `RESET` (R230). -/
  | reset
  deriving DecidableEq, Repr

end Sys2Proof
end

