-- ==== Sys2Proof/WellFormed.lean ====
section
/-! DEFINITION. Well-formedness: of an instance's parameters (R6 to R9) and of a transaction. -/

namespace Sys2Proof

/-- R9: `SYMBOL_CODE` is a bijection with `Closed` at `000`: the eight codes are distinct. -/
def SymbolCode.wellFormed (c : SymbolCode) : Bool :=
  decide [0b000#3, c.d0, c.d1, c.d2, c.d3, c.d4, c.mark1, c.mark2].Nodup

/-- R6: `DEC_BUDGET` is an integer in 1..15. -/
def Config.budgetInRange (c : Config) : Bool :=
  decide (1 ≤ c.decBudget) && decide (c.decBudget ≤ 15)

/-- The parameters are those of an instance the spec describes (R6 to R9). -/
def Config.wellFormed (c : Config) : Bool :=
  c.budgetInRange && c.symbolCode.wellFormed

/-- Every transaction term is well formed: each operand has exactly the width of its field (R59, R73), and all eight codes
are legal on every symbol input (R72). What can be ill formed is a word, which `decode` refuses (R81). -/
def Instr.wellFormed : Instr → Bool
  | .encByte _ => true
  | .encSym => true
  | .encSetPrev _ => true
  | .decSym _ => true
  | .decFlush => true
  | .decSetPrev _ => true
  | .decResult => true
  | .romOffset _ => true
  | .romEmit _ _ => true
  | .observe _ _ => true
  | .fmdClassify _ => true
  | .reset => true

end Sys2Proof
end

