-- ==== Sys2Proof/Decode.lean ====
section
/-! DEFINITION. The transaction word (R79 to R81, R91): fields, the opcode table, the decoder, the encoder. -/

namespace Sys2Proof

/-- Why a word has no meaning (R81). -/
inductive DecodeRefusal where
  /-- The op is one of `0x0`, `0xC`, `0xD`, `0xE`. -/
  | reservedOp
  /-- A defined op with a 1 in a payload bit its row does not name. -/
  | illFormed
  deriving DecidableEq, Repr

/-- `op = t[15:12]` (R79). -/
def opField (t : Word) : BitVec 4 := t.extractLsb' 12 4

/-- `t[7:0]`, the byte operand (R80). -/
def byteField (t : Word) : Byte := t.extractLsb' 0 8

/-- `t[2:0]`, the symbol operand `s` or `p` (R80). -/
def symField (t : Word) : Code := t.extractLsb' 0 3

/-- `t[5:4]`, the value operand of `ROM_EMIT` (R80). -/
def valueField (t : Word) : Value := t.extractLsb' 4 2

/-- `t[6:4]`, the incoming symbol of `OBSERVE` (R80). -/
def incomingField (t : Word) : Code := t.extractLsb' 4 3

/-- R81: a word of a defined op has its meaning when every payload bit its row does not name is 0. -/
def acceptIf (unnamedZero : Bool) (i : Instr) : Except DecodeRefusal Instr :=
  if unnamedZero then .ok i else .error .illFormed

/-- The decoder (R80, R81, R91): total on all words, refusing by name. -/
def decode (t : Word) : Except DecodeRefusal Instr :=
  match opField t with
  | 0x1#4 => acceptIf (t.extractLsb' 8 4 == 0#4) (.encByte (byteField t))
  | 0x2#4 => acceptIf (t.extractLsb' 0 12 == 0#12) .encSym
  | 0x3#4 => acceptIf (t.extractLsb' 3 9 == 0#9) (.encSetPrev (symField t))
  | 0x4#4 => acceptIf (t.extractLsb' 3 9 == 0#9) (.decSym (symField t))
  | 0x5#4 => acceptIf (t.extractLsb' 0 12 == 0#12) .decFlush
  | 0x6#4 => acceptIf (t.extractLsb' 3 9 == 0#9) (.decSetPrev (symField t))
  | 0x7#4 => acceptIf (t.extractLsb' 0 12 == 0#12) .decResult
  | 0x8#4 => acceptIf (t.extractLsb' 3 9 == 0#9) (.romOffset (symField t))
  | 0x9#4 => acceptIf (t.extractLsb' 3 1 == 0#1 && t.extractLsb' 6 6 == 0#6) (.romEmit (valueField t) (symField t))
  | 0xA#4 => acceptIf (t.extractLsb' 3 1 == 0#1 && t.extractLsb' 7 5 == 0#5) (.observe (incomingField t) (symField t))
  | 0xB#4 => acceptIf (t.extractLsb' 3 9 == 0#9) (.fmdClassify (symField t))
  | 0xF#4 => acceptIf (t.extractLsb' 0 12 == 0#12) .reset
  | _ => .error .reservedOp

/-- The encoder: the transaction word of each transaction, as R89's table spells it. -/
def encode : Instr → Word
  | .encByte b => 0x1#4 ++ 0#4 ++ b
  | .encSym => 0x2000#16
  | .encSetPrev s => 0x3#4 ++ 0#9 ++ s
  | .decSym s => 0x4#4 ++ 0#9 ++ s
  | .decFlush => 0x5000#16
  | .decSetPrev s => 0x6#4 ++ 0#9 ++ s
  | .decResult => 0x7000#16
  | .romOffset p => 0x8#4 ++ 0#9 ++ p
  | .romEmit v p => 0x9#4 ++ 0#6 ++ v ++ 0#1 ++ p
  | .observe i p => 0xA#4 ++ 0#5 ++ i ++ 0#1 ++ p
  | .fmdClassify s => 0xB#4 ++ 0#9 ++ s
  | .reset => 0xF000#16

/-- A row of spec/opcode_table.json: a word belongs to it when its bits under the mask are the match value. -/
structure OpcodeRow where
  mnemonic : String
  value : Word
  mask : Word
  deriving DecidableEq, Repr

/-- spec/opcode_table.json, row by row. -/
def opcodeTable : List OpcodeRow := [
  ⟨"ENC_BYTE", 0x1000#16, 0xFF00#16⟩,
  ⟨"ENC_SYM", 0x2000#16, 0xFFFF#16⟩,
  ⟨"ENC_SET_PREV", 0x3000#16, 0xFFF8#16⟩,
  ⟨"DEC_SYM", 0x4000#16, 0xFFF8#16⟩,
  ⟨"DEC_FLUSH", 0x5000#16, 0xFFFF#16⟩,
  ⟨"DEC_SET_PREV", 0x6000#16, 0xFFF8#16⟩,
  ⟨"DEC_RESULT", 0x7000#16, 0xFFFF#16⟩,
  ⟨"ROM_OFFSET", 0x8000#16, 0xFFF8#16⟩,
  ⟨"ROM_EMIT", 0x9000#16, 0xFFC8#16⟩,
  ⟨"OBSERVE", 0xA000#16, 0xFF88#16⟩,
  ⟨"FMD_CLASSIFY", 0xB000#16, 0xFFF8#16⟩,
  ⟨"RESET", 0xF000#16, 0xFFFF#16⟩]

/-- The word's bits under the row's mask are the row's match value. -/
def OpcodeRow.admits (r : OpcodeRow) (t : Word) : Bool := t &&& r.mask == r.value

/-- The mnemonic of a transaction in spec/opcode_table.json. -/
def Instr.mnemonic : Instr → String
  | .encByte _ => "ENC_BYTE"
  | .encSym => "ENC_SYM"
  | .encSetPrev _ => "ENC_SET_PREV"
  | .decSym _ => "DEC_SYM"
  | .decFlush => "DEC_FLUSH"
  | .decSetPrev _ => "DEC_SET_PREV"
  | .decResult => "DEC_RESULT"
  | .romOffset _ => "ROM_OFFSET"
  | .romEmit _ _ => "ROM_EMIT"
  | .observe _ _ => "OBSERVE"
  | .fmdClassify _ => "FMD_CLASSIFY"
  | .reset => "RESET"

/-- The transaction word whose low `nbits` bits are those of `w` and whose other bits are 0.
The word has no byte order, because no bus carries it (R79). DESIGN CHOICE, log entry 14. Safe. -/
def tableWord (nbits w : Nat) : Word := BitVec.ofNat 16 (w % 2 ^ nbits)

/-- The transaction this decoder reads from a word numbered as spec/opcode_table.json numbers it; a number of bits over the
16 of a transaction word (R91) names no word. -/
def decodeTableWord (nbits w : Nat) : Option Instr :=
  if nbits ≤ 16 then (decode (tableWord nbits w)).toOption else none

end Sys2Proof
end

