-- ==== Sys2Proof/Machine/State.lean ====
section
/-! DEFINITION. The machine's state as plain data: the registers of R25 to R34, the instance's parameters, and the host's side
of the ports. -/

namespace Sys2Proof.Machine

/-- The result status (R77), the content of `dec_res_status`. -/
inductive Status where
  /-- `00`: the frame ended with `Mark1Detected`. -/
  | okMark1
  /-- `01`: the frame ended with `Mark2Detected`. -/
  | okMark2
  /-- `10`: `ChannelClosedError` (R201). -/
  | errChannelClosed
  /-- `11`: `FramingError` (R202). -/
  | errFraming
  deriving DecidableEq, Repr

/-- The class of a symbol (R150). -/
inductive SymbolClass where
  | closed
  | data (index : BitVec 3)
  | mark1
  | mark2
  deriving DecidableEq, Repr

/-- The outcome of one observation (R151), the `Outcome` of the source's §4.4. -/
inductive Observation where
  | idle
  | channelDown
  | mark1Detected
  | mark2Detected
  | data (v : Value)
  deriving DecidableEq, Repr

/-- The encoder's registers (R25 to R28). -/
structure Encoder where
  /-- `enc_prev` (R25). -/
  prev : Symbol
  /-- `enc_shift` (R26). -/
  shift : Byte
  /-- `enc_phase` (R27). -/
  phase : BitVec 3
  /-- `enc_busy` (R28). -/
  busy : Bool
  deriving DecidableEq, Repr

/-- The decoder's registers (R29 to R34). -/
structure Decoder where
  /-- `dec_prev` (R29). -/
  prev : Symbol
  /-- `dec_acc` (R30). -/
  acc : Byte
  /-- `dec_count` (R31). -/
  count : BitVec 4
  /-- `dec_nslots` (R32). -/
  nslots : BitVec 4
  /-- `dec_res_valid` (R33). -/
  resValid : Bool
  /-- `dec_res_status` (R34). -/
  resStatus : Status
  /-- `dec_res_nslots` (R34). -/
  resNslots : BitVec 4
  /-- `dec_res_byte` (R34). -/
  resByte : Byte
  deriving DecidableEq, Repr

/-- A value a transaction returns to the host (R80, column "returns"). -/
inductive HostValue where
  /-- A symbol code (`ENC_SYM`, `ROM_EMIT`). -/
  | symbolCode (c : Code)
  /-- An offset word (R74). -/
  | offsetWord (o : BitVec 3)
  /-- An outcome word (R75). -/
  | outcomeWord (o : BitVec 5)
  /-- A class word (R76). -/
  | classWord (c : BitVec 5)
  /-- A result word (R78). -/
  | resultWord (r : BitVec 14)
  deriving DecidableEq, Repr

/-- The input ports at one rising edge of `clk` (R83 to R85). -/
structure PortInputs where
  rst : Bool
  encInValid : Bool
  encInByte : Byte
  encPrevLoad : Bool
  encPrevIn : Code
  encOutReady : Bool
  decInValid : Bool
  decInSym : Code
  decFlush : Bool
  decPrevLoad : Bool
  decPrevIn : Code
  decOutReady : Bool
  romPrevIn : Code
  romVIn : Value
  obsIncIn : Code
  obsPrevIn : Code
  fmdSymIn : Code
  deriving DecidableEq, Repr

/-- The output ports just before a rising edge of `clk` (R83 to R85). -/
structure PortOutputs where
  encInReady : Bool
  encPrevReady : Bool
  encOutValid : Bool
  encOutSym : Code
  decInReady : Bool
  decFlushReady : Bool
  decPrevReady : Bool
  decOutValid : Bool
  decOutStatus : BitVec 2
  decOutNslots : BitVec 4
  decOutByte : Byte
  romOffsetOut : BitVec 3
  romEmitOut : Code
  obsOut : BitVec 5
  fmdClassOut : BitVec 5
  encBusy : Bool
  encPrevQ : Code
  decPrevQ : Code
  decFrameActive : Bool
  deriving DecidableEq, Repr

/-- One offer of the host. DESIGN CHOICE, log entries 1 and 12. -/
inductive HostInput where
  /-- A transaction word (R79). -/
  | word (t : Word)
  /-- A rising edge of `clk` with the input ports at these values (R87). -/
  | edge (p : PortInputs)
  deriving DecidableEq, Repr

/-- What the host sees of a step. DESIGN CHOICE, log entry 4. -/
inductive Event where
  /-- A transaction fired and returned this value, `none` where R80 says it returns nothing. -/
  | fired (i : Instr) (out : Option HostValue)
  /-- The output ports as they stood just before a rising edge (R86, R88). -/
  | sampled (o : PortOutputs)
  deriving DecidableEq, Repr

/-- The host's side of the ports: the model's own fields, no state of the block (log entries 1, 2, 4, 7). -/
structure HostSide where
  /-- The offers to come, the next one first. -/
  program : List HostInput
  /-- The offers held at their ports because they were not enabled (R82), the oldest first. -/
  waiting : List Instr
  /-- What the host has seen, the newest first. -/
  trace : List Event
  /-- How many draws of free values there have been (U4). -/
  draws : Nat
  deriving DecidableEq, Repr

/-- The state of one instance: its parameters, the two agents' registers (R24) and the host's side. -/
structure State where
  /-- The parameters (R6 to R9), which no step changes (R36). DESIGN CHOICE, log entry 5. -/
  config : Config
  /-- The encoder's registers. -/
  enc : Encoder
  /-- The decoder's registers. -/
  dec : Decoder
  /-- The host's side of the ports. -/
  host : HostSide
  deriving DecidableEq, Repr

/-- The block has no traps and no faulting behaviour (R200, 93_implementation_defined.md): no step stops with a fault, so
this type has no constructor. Log entry 11. Safe: nobody raises one. -/
inductive Fault where
  deriving DecidableEq, Repr

/-- Why the model gives a host input no meaning (R205). -/
inductive Refusal where
  /-- Raised by `exec` for an instruction whose meaning is not written yet; no arm raises it. Safe. -/
  | notModelled (mnemonic : String)
  /-- Raised by the fetch of an offered word whose op is `0x0`, `0xC`, `0xD` or `0xE` (R81, U2). Safe. -/
  | reservedOp (t : Word)
  /-- Raised by the fetch of an offered word with a 1 in a payload bit its row does not name (R81, U2). Safe. -/
  | illFormedWord (t : Word)
  deriving DecidableEq, Repr

/-- The encoder's reset values (R39, R230). -/
def Encoder.reset : Encoder where
  prev := .closed
  shift := 0x00#8
  phase := 0#3
  busy := false

/-- The decoder's reset values (R39, R230). -/
def Decoder.reset : Decoder where
  prev := .closed
  acc := 0x00#8
  count := 0#4
  nslots := 0#4
  resValid := false
  resStatus := .okMark1
  resNslots := 0#4
  resByte := 0x00#8

/-- The host has offered nothing and seen nothing. DESIGN CHOICE, log entries 1, 2, 4 and 7. -/
def HostSide.fresh : HostSide where
  program := []
  waiting := []
  trace := []
  draws := 0

/-- The machine right after reset (R39, R230), with the default parameters (R6 to R9) and nothing offered. -/
def State.reset : State where
  config := Config.standard
  enc := Encoder.reset
  dec := Decoder.reset
  host := HostSide.fresh

end Sys2Proof.Machine
end

