-- ==== Sys2Proof/Machine/Operands.lean ====
section
/-! DEFINITION. Operand and result formats: symbol codes (R9, R70, R71), chunks (R54, R73), the words the block returns
(R74 to R78). -/

namespace Sys2Proof.Machine

/-- `code(s)` (R14) under a `SYMBOL_CODE`; `Closed` is `000` in every one (R9). -/
def code (c : SymbolCode) : Symbol → Code
  | .closed => 0b000#3
  | .d0 => c.d0
  | .d1 => c.d1
  | .d2 => c.d2
  | .d3 => c.d3
  | .d4 => c.d4
  | .mark1 => c.mark1
  | .mark2 => c.mark2

/-- `sym(c)` (R14), the inverse of `code`: total, because all eight codes are legal (R72).
For a `SYMBOL_CODE` that is no bijection, which R9 excludes, the first match counts. DESIGN CHOICE, log entry 17. Safe. -/
def sym (c : SymbolCode) (k : Code) : Symbol :=
  if k = 0b000#3 then .closed
  else if k = c.d0 then .d0
  else if k = c.d1 then .d1
  else if k = c.d2 then .d2
  else if k = c.d3 then .d3
  else if k = c.d4 then .d4
  else if k = c.mark1 then .mark1
  else .mark2

/-- The symbol of `ENC_MARKER` (R7). -/
def markerSymbol : Marker → Symbol
  | .mark1 => .mark1
  | .mark2 => .mark2

/-- The data symbols (R21). -/
def isData : Symbol → Bool
  | .d0 => true
  | .d1 => true
  | .d2 => true
  | .d3 => true
  | .d4 => true
  | .closed => false
  | .mark1 => false
  | .mark2 => false

/-- `index_of(Dk) = k` (R14); used for data symbols only, 0 for the others. -/
def indexOf : Symbol → Nat
  | .d0 => 0
  | .d1 => 1
  | .d2 => 2
  | .d3 => 3
  | .d4 => 4
  | .closed => 0
  | .mark1 => 0
  | .mark2 => 0

/-- `data(k)` (R14), used for `k` in 0..4. -/
def dataSymbol : Nat → Symbol
  | 0 => .d0
  | 1 => .d1
  | 2 => .d2
  | 3 => .d3
  | _ => .d4

/-- `chunk_k(b) = b[7-2k : 6-2k]` for `k` in 0..3 (R54, R73). -/
def chunk (k : Nat) (b : Byte) : Value := b.extractLsb' (6 - 2 * k) 2

/-- The chunk the encoder emits next, `enc_shift[7:6]` (R26). -/
def topChunk (b : Byte) : Value := b.extractLsb' 6 2

/-- `((acc << 2) | v)[7:0]` (R30, R55). -/
def shiftIn (acc : Byte) (v : Value) : Byte := (acc <<< 2) ||| v.zeroExtend 8

/-- The offset word of an offset 0..5 (R74). -/
def offsetWord (o : Nat) : BitVec 3 := BitVec.ofNat 3 o

/-- The outcome word (R75): `kind` in bits 4..2, `value` in bits 1..0. -/
def outcomeWord : Observation → BitVec 5
  | .idle => 0b000#3 ++ 0b00#2
  | .channelDown => 0b001#3 ++ 0b00#2
  | .mark1Detected => 0b010#3 ++ 0b00#2
  | .mark2Detected => 0b011#3 ++ 0b00#2
  | .data v => 0b100#3 ++ v

/-- The class word (R76): `cls` in bits 4..3, `idx` in bits 2..0. -/
def classWord : SymbolClass → BitVec 5
  | .closed => 0b00#2 ++ 0b000#3
  | .data k => 0b01#2 ++ k
  | .mark1 => 0b10#2 ++ 0b000#3
  | .mark2 => 0b11#2 ++ 0b000#3

/-- The status codes (R77). -/
def statusCode : Status → BitVec 2
  | .okMark1 => 0b00#2
  | .okMark2 => 0b01#2
  | .errChannelClosed => 0b10#2
  | .errFraming => 0b11#2

/-- The result word `{status, nslots, byte}` (R78). -/
def resultWord (st : Status) (nslots : BitVec 4) (byte : Byte) : BitVec 14 := statusCode st ++ nslots ++ byte

end Sys2Proof.Machine
end

