-- ==== Sys2Proof/Machine/Flags.lean ====
section
/-! DEFINITION. The status flags (R35) and the enabling conditions of the transactions (R80, R82). -/

namespace Sys2Proof.Machine

/-- `dec_frame_active`, that is `dec_count != 0` (R35). -/
def frameActive (d : Decoder) : Bool := d.count != 0#4

/-- The encoder takes a byte or a channel state: `enc_busy = 0` (R80). -/
def encIdle (s : State) : Bool := !s.enc.busy

/-- The decoder takes an input: `dec_res_valid = 0` (R80). -/
def decOpen (s : State) : Bool := !s.dec.resValid

/-- The column "enabled when" of R80. -/
def enabled : Instr → State → Bool
  | .encByte _, s => encIdle s
  | .encSym, s => s.enc.busy
  | .encSetPrev _, s => encIdle s
  | .decSym _, s => decOpen s
  | .decFlush, s => decOpen s
  | .decSetPrev _, s => decOpen s
  | .decResult, s => s.dec.resValid
  | .romOffset _, _ => true
  | .romEmit _ _, _ => true
  | .observe _ _, _ => true
  | .fmdClassify _, _ => true
  | .reset, _ => true

end Sys2Proof.Machine
end

