-- ==== Sys2Proof/Machine/Ops.lean ====
section
/-! DEFINITION. The shared operations: firing and holding a transaction, ending a frame (`finish`, the block's error entry)
and taking its result (the return), and chaining steps. -/

namespace Sys2Proof.Machine

/-- Rewrite the encoder's registers and nothing else (R24). -/
def State.mapEnc (f : Encoder → Encoder) (s : State) : State := { s with enc := f s.enc }

/-- Rewrite the decoder's registers and nothing else (R24). -/
def State.mapDec (f : Decoder → Decoder) (s : State) : State := { s with dec := f s.dec }

/-- The host sees an event. -/
def State.log (e : Event) (s : State) : State := { s with host := { s.host with trace := e :: s.host.trace } }

/-- R82, R205: no step. No register changes; the host keeps the transaction offered (R237). Log entry 2. -/
def State.hold (i : Instr) (s : State) : State := { s with host := { s.host with waiting := s.host.waiting ++ [i] } }

/-- One transaction (R13, R79, R82). Enabled: its effect on the state before the step, and its value to the host.
Not enabled: it waits. `out` and `effect` both read the state before the step. -/
def perform (i : Instr) (out : State → Option HostValue) (effect : State → State) (s : State) :
    Host.Outcome State Fault Refusal :=
  if enabled i s then .next ((effect s).log (.fired i (out s))) else .next (s.hold i)

/-- Clear the frame registers (R30 to R32): the next frame starts empty. -/
def clearFrame (d : Decoder) : Decoder := { d with acc := 0x00#8, count := 0#4, nslots := 0#4 }

/-- `finish(st, a, n)` (R170, R209): the entry into a frame's end, in error or not. `dec_prev` is not written. -/
def finish (st : Status) (a : Byte) (n : BitVec 4) (d : Decoder) : Decoder :=
  { clearFrame d with resStatus := st, resByte := a, resNslots := n, resValid := true }

/-- The return from a frame's end (R174, R210): the result is no longer pending, its registers keep their content. -/
def releaseResult (d : Decoder) : Decoder := { d with resValid := false }

/-- Go on from the next state; stop where the step stopped. -/
def andThen (o : Host.Outcome State Fault Refusal) (f : State → Host.Outcome State Fault Refusal) :
    Host.Outcome State Fault Refusal :=
  match o with
  | .next s => f s
  | .fault r => .fault r
  | .refused r => .refused r

end Sys2Proof.Machine
end

