-- ==== Sys2Proof/Machine/Offers.lean ====
section
/-! DEFINITION. What the machine takes up next (R79, R82, R87): a held offer that has become enabled, else the host's next
offer. The block fetches nothing from memory (R64). Log entries 1 and 2. -/

namespace Sys2Proof.Machine

/-- The order in which held offers that are enabled together fire: the order of one edge (R87, R208). The encoder and the
decoder share no register, so which agent goes first does not matter (R87, item 4). -/
def portRank : Instr → Nat
  | .reset => 0
  | .encSetPrev _ => 1
  | .encByte _ => 2
  | .encSym => 3
  | .decSetPrev _ => 4
  | .decFlush => 5
  | .decSym _ => 6
  | .decResult => 7
  | .romOffset _ => 8
  | .romEmit _ _ => 9
  | .observe _ _ => 10
  | .fmdClassify _ => 11

/-- The enabled offer of lowest rank among those held, the oldest of equal rank. -/
def firstEnabled (s : State) : List Instr → Option Instr
  | [] => none
  | i :: rest =>
    match firstEnabled s rest with
    | none => if enabled i s then some i else none
    | some j => if enabled i s && decide (portRank i ≤ portRank j) then some i else some j

/-- The host's held offer `i` is taken up: its oldest copy leaves the port. -/
def State.release (i : Instr) (s : State) : State :=
  { s with host := { s.host with waiting := s.host.waiting.erase i } }

/-- The host's offers to come are these. -/
def State.offer (rest : List HostInput) (s : State) : State := { s with host := { s.host with program := rest } }

/-- The refusal of a word that `decode` refuses (R81). -/
def refusalOf (t : Word) : DecodeRefusal → Refusal
  | .reservedOp => .reservedOp t
  | .illFormed => .illFormedWord t

/-- What the machine takes up next. -/
inductive Move where
  /-- Run this transaction in this state. -/
  | run (i : Instr) (s : State)
  /-- A rising edge of `clk` in this state. -/
  | edge (p : PortInputs) (s : State)
  /-- Refuse the offered word. -/
  | refuse (r : Refusal)
  /-- Nothing is offered that could fire. -/
  | idle
  deriving DecidableEq, Repr

/-- The next word's transaction, with the word taken from the offers. -/
def takeWord (t : Word) (rest : List HostInput) (s : State) : Move :=
  match decode t with
  | .ok i => .run i (s.offer rest)
  | .error e => .refuse (refusalOf t e)

/-- Take up what comes next. -/
def fetch (s : State) : Move :=
  match firstEnabled s s.host.waiting with
  | some i => .run i (s.release i)
  | none =>
    match s.host.program with
    | [] => .idle
    | .word t :: rest => takeWord t rest s
    | .edge p :: rest => .edge p (s.offer rest)

/-- The host offers the word `t` next, and holds no earlier offer that would fire before it. -/
def offerWord (t : Word) (s : State) : State :=
  { s with host := { s.host with waiting := [], program := .word t :: s.host.program } }

end Sys2Proof.Machine
end

