-- ==== Sys2Proof/Machine/TransitionTableRom.lean ====
section
/-! DEFINITION. `transition_table_rom`: the three shared functions (R110 to R115), the ROM reads that realise them under a
`SYMBOL_CODE` (R41, R51), and the two ROM probes. -/

namespace Sys2Proof.Machine

/-- The offset function (R110): 5 for `D4`, unreduced (R111, C8, D16). -/
def offset : Symbol → Nat
  | .closed => 0
  | .d0 => 1
  | .d1 => 2
  | .d2 => 3
  | .d3 => 4
  | .d4 => 5
  | .mark1 => 0
  | .mark2 => 0

/-- `emit(v, p)` (R112). -/
def emit (v : Value) (p : Symbol) : Symbol := dataSymbol ((v.toNat + offset p) % 5)

/-- `dval(i, p)` (R114, C9): 0 for an incoming symbol that is no data symbol (D17). -/
def dval (i p : Symbol) : Value :=
  if isData i then
    if indexOf i ≥ offset p then BitVec.ofNat 2 ((indexOf i - offset p) % 4)
    else BitVec.ofNat 2 ((5 + indexOf i - offset p) % 4)
  else 0#2

/-- `RomRead(OFFSET, a)` with `a = code(previous)` (R51, R116). -/
def romReadOffset (c : SymbolCode) (a : BitVec 3) : BitVec 3 := offsetWord (offset (sym c a))

/-- `RomRead(EMIT, a)` with `a = {code(previous), v}` (R51, R117). -/
def romReadEmit (c : SymbolCode) (a : BitVec 5) : Code :=
  code c (emit (a.extractLsb' 0 2) (sym c (a.extractLsb' 2 3)))

/-- `RomRead(DVAL, a)` with `a = {code(incoming), code(previous)}` (R51, R118). -/
def romReadDval (c : SymbolCode) (a : BitVec 6) : Value :=
  dval (sym c (a.extractLsb' 3 3)) (sym c (a.extractLsb' 0 3))

/-- `ROM_OFFSET p` (R119). -/
def execRomOffset (p : Code) (s : State) : Host.Outcome State Fault Refusal :=
  perform (.romOffset p) (fun s => some (.offsetWord (romReadOffset s.config.symbolCode p))) id s

/-- `ROM_EMIT v, p` (R120). -/
def execRomEmit (v : Value) (p : Code) (s : State) : Host.Outcome State Fault Refusal :=
  perform (.romEmit v p) (fun s => some (.symbolCode (romReadEmit s.config.symbolCode (p ++ v)))) id s

end Sys2Proof.Machine
end

