-- ==== Sys2Proof/Machine/FrameMarkerDetector.lean ====
section
/-! DEFINITION. `frame_marker_detector`: classify (R150), observe (R151), and their two probes. -/

namespace Sys2Proof.Machine

/-- `classify(s)` (R150). -/
def classify : Symbol → SymbolClass
  | .closed => .closed
  | .d0 => .data 0#3
  | .d1 => .data 1#3
  | .d2 => .data 2#3
  | .d3 => .data 3#3
  | .d4 => .data 4#3
  | .mark1 => .mark1
  | .mark2 => .mark2

/-- `observe(i, p)` (R151), its steps in the rule's order (R206). -/
def observeTransition (c : SymbolCode) (i p : Symbol) : Observation :=
  if i = p then .idle
  else if i = .closed then .channelDown
  else if i = .mark1 then .mark1Detected
  else if i = .mark2 then .mark2Detected
  else .data (romReadDval c (code c i ++ code c p))

/-- `FMD_CLASSIFY s` (R153). -/
def execFmdClassify (x : Code) (s : State) : Host.Outcome State Fault Refusal :=
  perform (.fmdClassify x) (fun s => some (.classWord (classWord (classify (sym s.config.symbolCode x))))) id s

/-- `OBSERVE i, p` (R154). -/
def execObserve (i p : Code) (s : State) : Host.Outcome State Fault Refusal :=
  perform (.observe i p)
    (fun s =>
      let c := s.config.symbolCode
      some (.outcomeWord (outcomeWord (observeTransition c (sym c i) (sym c p)))))
    id s

end Sys2Proof.Machine
end

