-- ==== Sys2Proof/Machine/LineCodeDecoder.lean ====
section
/-! DEFINITION. `line_code_decoder`: DEC_SYM, DEC_FLUSH, DEC_SET_PREV, DEC_RESULT (R171 to R174). -/

namespace Sys2Proof.Machine

/-- Count one transition of the frame (R31, R171): at the budget the frame ends with `ERR_FRAMING` and the given byte and
slots (R202), otherwise they are the frame's new accumulator and slot count. -/
def countTransition (budget : Nat) (a : Byte) (n : BitVec 4) (d : Decoder) : Decoder :=
  if d.count.toNat + 1 = budget then finish .errFraming a n d
  else { d with acc := a, nslots := n, count := d.count + 1#4 }

/-- What `DEC_SYM` does for each outcome (R171), with `dec_prev` already the consumed symbol. -/
def actOn (c : Config) (o : Observation) (d : Decoder) : Decoder :=
  match o with
  | .idle => if c.idleCounts then countTransition c.decBudget d.acc d.nslots d else d
  | .channelDown => finish .errChannelClosed d.acc d.nslots d
  | .mark1Detected => finish .okMark1 d.acc d.nslots d
  | .mark2Detected => finish .okMark2 d.acc d.nslots d
  | .data v => countTransition c.decBudget (shiftIn d.acc v) (d.nslots + 1#4) d

/-- The register writes of `DEC_SYM` for the symbol `x` (R171). -/
def consumeSymbol (c : Config) (x : Symbol) (d : Decoder) : Decoder :=
  actOn c (observeTransition c.symbolCode x d.prev) { d with prev := x }

/-- The register writes of `DEC_FLUSH` (R172). -/
def flushFrame (d : Decoder) : Decoder :=
  if frameActive d then finish .errFraming d.acc d.nslots d else d

/-- The register writes of `DEC_SET_PREV` (R173). -/
def loadDecPrev (x : Symbol) (d : Decoder) : Decoder := { clearFrame d with prev := x }

/-- `DEC_SYM s` (R171). -/
def execDecSym (x : Code) (s : State) : Host.Outcome State Fault Refusal :=
  perform (.decSym x) (fun _ => none) (fun s => s.mapDec (consumeSymbol s.config (sym s.config.symbolCode x))) s

/-- `DEC_FLUSH` (R172). -/
def execDecFlush (s : State) : Host.Outcome State Fault Refusal :=
  perform .decFlush (fun _ => none) (State.mapDec flushFrame) s

/-- `DEC_SET_PREV s` (R173). -/
def execDecSetPrev (x : Code) (s : State) : Host.Outcome State Fault Refusal :=
  perform (.decSetPrev x) (fun _ => none) (fun s => s.mapDec (loadDecPrev (sym s.config.symbolCode x))) s

/-- `DEC_RESULT` (R174). -/
def execDecResult (s : State) : Host.Outcome State Fault Refusal :=
  perform .decResult (fun s => some (.resultWord (resultWord s.dec.resStatus s.dec.resNslots s.dec.resByte)))
    (State.mapDec releaseResult) s

end Sys2Proof.Machine
end

