-- ==== Sys2Proof/Machine/LineCodeEncoder.lean ====
section
/-! DEFINITION. `line_code_encoder`: the next symbol (R130) and ENC_BYTE, ENC_SYM, ENC_SET_PREV (R131 to R133). -/

namespace Sys2Proof.Machine

/-- `enc_next()` (R130). The phases 5 to 7 are never held (R27, R38) and fall under the rule's `else`. Log entry 10. -/
def encNext (c : Config) (e : Encoder) : Symbol :=
  if e.phase < 4#3 then
    sym c.symbolCode (romReadEmit c.symbolCode (code c.symbolCode e.prev ++ topChunk e.shift))
  else markerSymbol c.encMarker

/-- The register writes of `ENC_BYTE` (R131). -/
def acceptByte (b : Byte) (e : Encoder) : Encoder := { e with shift := b, phase := 0#3, busy := true }

/-- The register writes of `ENC_SYM` (R132). -/
def handOutSymbol (c : Config) (e : Encoder) : Encoder :=
  let x := encNext c e
  if e.phase < 4#3 then { e with prev := x, shift := e.shift <<< 2, phase := e.phase + 1#3 }
  else { e with prev := x, phase := 0#3, busy := false }

/-- The register writes of `ENC_SET_PREV` (R133). -/
def loadEncPrev (x : Symbol) (e : Encoder) : Encoder := { e with prev := x }

/-- `ENC_BYTE b` (R131). -/
def execEncByte (b : Byte) (s : State) : Host.Outcome State Fault Refusal :=
  perform (.encByte b) (fun _ => none) (State.mapEnc (acceptByte b)) s

/-- `ENC_SYM` (R132). -/
def execEncSym (s : State) : Host.Outcome State Fault Refusal :=
  perform .encSym (fun s => some (.symbolCode (code s.config.symbolCode (encNext s.config s.enc))))
    (fun s => s.mapEnc (handOutSymbol s.config)) s

/-- `ENC_SET_PREV s` (R133). -/
def execEncSetPrev (x : Code) (s : State) : Host.Outcome State Fault Refusal :=
  perform (.encSetPrev x) (fun _ => none) (fun s => s.mapEnc (loadEncPrev (sym s.config.symbolCode x))) s

end Sys2Proof.Machine
end

