-- ==== Sys2Proof/Machine/Reset.lean ====
section
/-! DEFINITION. RESET (R230). -/

namespace Sys2Proof.Machine

/-- Every register takes its reset value (R39, R230); work in flight is discarded with no result (R231). The parameters and
the host's side stay: they are no registers (R36), and what the host offers or has seen is the host's (log entry 3). -/
def resetRegisters (s : State) : State := (s.mapEnc fun _ => Encoder.reset).mapDec fun _ => Decoder.reset

/-- `RESET` (R230). -/
def execReset (s : State) : Host.Outcome State Fault Refusal :=
  perform .reset (fun _ => none) resetRegisters s

end Sys2Proof.Machine
end

