-- ==== Sys2Proof/Machine/Dispatch.lean ====
section
/-! DEFINITION. The meaning of each transaction, one arm per constructor of `Instr` (R80). -/

namespace Sys2Proof.Machine

def exec (i : Instr) (s : State) : Host.Outcome State Fault Refusal :=
  match i with
  | .encByte b => Sys2Proof.Machine.execEncByte b s
  | .encSym => Sys2Proof.Machine.execEncSym s
  | .encSetPrev x => Sys2Proof.Machine.execEncSetPrev x s
  | .decSym x => Sys2Proof.Machine.execDecSym x s
  | .decFlush => Sys2Proof.Machine.execDecFlush s
  | .decSetPrev x => Sys2Proof.Machine.execDecSetPrev x s
  | .decResult => Sys2Proof.Machine.execDecResult s
  | .romOffset p => Sys2Proof.Machine.execRomOffset p s
  | .romEmit v p => Sys2Proof.Machine.execRomEmit v p s
  | .observe x p => Sys2Proof.Machine.execObserve x p s
  | .fmdClassify x => Sys2Proof.Machine.execFmdClassify x s
  | .reset => Sys2Proof.Machine.execReset s

end Sys2Proof.Machine
end

