-- ==== Sys2Proof/Machine/Ports.lean ====
section
/-! DEFINITION. The ports (R83 to R88): readies and valids, the fire terms, the output ports, and a rising edge of `clk` as a
sequence of transactions. -/

namespace Sys2Proof.Machine

/-- `enc_in_ready` (R86). -/
def encInReady (p : PortInputs) (s : State) : Bool := !p.rst && !s.enc.busy

/-- `enc_prev_ready` (R86). -/
def encPrevReady (p : PortInputs) (s : State) : Bool := !p.rst && !s.enc.busy

/-- `enc_out_valid` (R86). -/
def encOutValid (p : PortInputs) (s : State) : Bool := !p.rst && s.enc.busy

/-- `dec_prev_ready` (R86). -/
def decPrevReady (p : PortInputs) (s : State) : Bool := !p.rst && !s.dec.resValid

/-- `dec_flush_ready` (R86): held off by `dec_prev_load`. -/
def decFlushReady (p : PortInputs) (s : State) : Bool := !p.rst && !s.dec.resValid && !p.decPrevLoad

/-- `dec_in_ready` (R86): held off by `dec_prev_load` and `dec_flush`. -/
def decInReady (p : PortInputs) (s : State) : Bool :=
  !p.rst && !s.dec.resValid && !p.decPrevLoad && !p.decFlush

/-- `dec_out_valid` (R86). -/
def decOutValid (p : PortInputs) (s : State) : Bool := !p.rst && s.dec.resValid

/-- `enc_prev_fire` (R86). -/
def encPrevFire (p : PortInputs) (s : State) : Bool := p.encPrevLoad && encPrevReady p s

/-- `enc_in_fire` (R86). -/
def encInFire (p : PortInputs) (s : State) : Bool := p.encInValid && encInReady p s

/-- `enc_out_fire` (R86). -/
def encOutFire (p : PortInputs) (s : State) : Bool := encOutValid p s && p.encOutReady

/-- `dec_prev_fire` (R86). -/
def decPrevFire (p : PortInputs) (s : State) : Bool := p.decPrevLoad && decPrevReady p s

/-- `dec_flush_fire` (R86). -/
def decFlushFire (p : PortInputs) (s : State) : Bool := p.decFlush && decFlushReady p s

/-- `dec_in_fire` (R86). -/
def decInFire (p : PortInputs) (s : State) : Bool := p.decInValid && decInReady p s

/-- `dec_out_fire` (R86). -/
def decOutFire (p : PortInputs) (s : State) : Bool := decOutValid p s && p.decOutReady

/-- The output ports (R83 to R86, R88). `enc_out_sym` and `dec_out_*` are free values while their valid is 0 (U4, D27):
log entry 7. The probes and the status outputs do not depend on `rst` (R85). -/
def portOutputs (p : PortInputs) (s : State) : PortOutputs :=
  let c := s.config.symbolCode
  let n := s.host.draws
  { encInReady := encInReady p s
    encPrevReady := encPrevReady p s
    encOutValid := encOutValid p s
    encOutSym := if encOutValid p s then code c (encNext s.config s.enc) else Config.freeEncOutSym n
    decInReady := decInReady p s
    decFlushReady := decFlushReady p s
    decPrevReady := decPrevReady p s
    decOutValid := decOutValid p s
    decOutStatus := if decOutValid p s then statusCode s.dec.resStatus else Config.freeDecOutStatus n
    decOutNslots := if decOutValid p s then s.dec.resNslots else Config.freeDecOutNslots n
    decOutByte := if decOutValid p s then s.dec.resByte else Config.freeDecOutByte n
    romOffsetOut := romReadOffset c p.romPrevIn
    romEmitOut := romReadEmit c (p.romPrevIn ++ p.romVIn)
    obsOut := outcomeWord (observeTransition c (sym c p.obsIncIn) (sym c p.obsPrevIn))
    fmdClassOut := classWord (classify (sym c p.fmdSymIn))
    encBusy := s.enc.busy
    encPrevQ := code c s.enc.prev
    decPrevQ := code c s.dec.prev
    decFrameActive := frameActive s.dec }

/-- The host samples the output ports just before the edge, and the free values of the next sample are fresh. -/
def sampleOutputs (p : PortInputs) (s : State) : State :=
  { s.log (.sampled (portOutputs p s)) with
    host := { (s.log (.sampled (portOutputs p s))).host with draws := s.host.draws + 1 } }

/-- A handshake's transaction, exactly when its fire term is 1 (R86). -/
def fireIf (fire : Bool) (i : Instr) (s : State) : Host.Outcome State Fault Refusal :=
  if fire then exec i s else .next s

/-- The encoder's transactions of an edge with `rst = 0`, in the order of R87, item 2. The fire terms are those of the state
`s0` just before the edge. -/
def encoderEdge (p : PortInputs) (s0 s : State) : Host.Outcome State Fault Refusal :=
  andThen (fireIf (encPrevFire p s0) (.encSetPrev p.encPrevIn) s) fun s1 =>
  andThen (fireIf (encInFire p s0) (.encByte p.encInByte) s1) fun s2 =>
  fireIf (encOutFire p s0) .encSym s2

/-- The decoder's transactions of an edge with `rst = 0` (R87, item 3): the terms exclude each other. -/
def decoderEdge (p : PortInputs) (s0 s : State) : Host.Outcome State Fault Refusal :=
  andThen (fireIf (decPrevFire p s0) (.decSetPrev p.decPrevIn) s) fun s1 =>
  andThen (fireIf (decFlushFire p s0) .decFlush s1) fun s2 =>
  andThen (fireIf (decInFire p s0) (.decSym p.decInSym) s2) fun s3 =>
  fireIf (decOutFire p s0) .decResult s3

/-- One rising edge of `clk` (R87): `RESET` alone while `rst = 1`, otherwise the encoder's and the decoder's transactions. -/
def clockEdge (p : PortInputs) (s : State) : Host.Outcome State Fault Refusal :=
  if p.rst then exec .reset (sampleOutputs p s)
  else andThen (encoderEdge p s (sampleOutputs p s)) (decoderEdge p s)

end Sys2Proof.Machine
end

