-- ==== Sys2Proof/Machine/Step.lean ====
section
/-! DEFINITION. One step of the machine, and the host's placing of an instruction. -/

namespace Sys2Proof.Machine

/-- One step: take up the next offer and run it. With nothing to fire, all state is held (R216): log entry 16. -/
def step (s : State) : Host.Outcome State Fault Refusal :=
  match fetch s with
  | .run i s' => exec i s'
  | .edge p s' => clockEdge p s'
  | .refuse r => .refused r
  | .idle => .next s

/-- The word of spec/opcode_table.json's numbering is the host's next offer. -/
def State.withFetchWord (s : State) (nbits w : Nat) : State := offerWord (tableWord nbits w) s

end Sys2Proof.Machine
end

