-- ==== Sys2Proof/Machine/Assembly.lean ====
section
/-! DEFINITION. The one-line syntax of the transactions (R89), the pseudo-instructions (R90) and their transaction words. -/

namespace Sys2Proof.Machine

/-- `<sym>`: a symbol name or a 3-bit literal (R89). -/
inductive SymOperand where
  | name (s : Symbol)
  | literal (k : Code)
  deriving DecidableEq, Repr

/-- A line: a transaction (R89) or a pseudo-instruction (R90). -/
inductive AsmLine where
  | encByte (b : Byte)
  | encSym
  | encSetPrev (s : SymOperand)
  | decSym (s : SymOperand)
  | decFlush
  | decSetPrev (s : SymOperand)
  | decResult
  | romOffset (p : SymOperand)
  | romEmit (v : Value) (p : SymOperand)
  | obs (i p : SymOperand)
  | fmdClass (s : SymOperand)
  | reset
  | encFrame (b : Byte)
  | encString (bs : List Byte)
  | decStream (ss : List SymOperand)
  | decFrame (ss : List SymOperand)
  deriving DecidableEq, Repr

/-- The code an operand stands for under a `SYMBOL_CODE`. -/
def operandCode (c : SymbolCode) : SymOperand → Code
  | .name s => code c s
  | .literal k => k

/-- `enc.frame` (R90): the byte and then its five symbols. -/
def expandFrame (b : Byte) : List Instr := .encByte b :: List.replicate 5 .encSym

/-- The transactions of a line (R89, R90). -/
def expandLine (c : SymbolCode) : AsmLine → List Instr
  | .encByte b => [.encByte b]
  | .encSym => [.encSym]
  | .encSetPrev s => [.encSetPrev (operandCode c s)]
  | .decSym s => [.decSym (operandCode c s)]
  | .decFlush => [.decFlush]
  | .decSetPrev s => [.decSetPrev (operandCode c s)]
  | .decResult => [.decResult]
  | .romOffset p => [.romOffset (operandCode c p)]
  | .romEmit v p => [.romEmit v (operandCode c p)]
  | .obs i p => [.observe (operandCode c i) (operandCode c p)]
  | .fmdClass s => [.fmdClassify (operandCode c s)]
  | .reset => [.reset]
  | .encFrame b => expandFrame b
  | .encString bs => bs.flatMap expandFrame
  | .decStream ss => ss.map fun s => .decSym (operandCode c s)
  | .decFrame ss => (ss.map fun s => .decSym (operandCode c s)) ++ [.decResult]

/-- The transaction words of a line (R89, R90). -/
def lineWords (c : SymbolCode) (l : AsmLine) : List Word := (expandLine c l).map encode

/-- `'`, which encloses a character literal. -/
def singleQuote : Char := Char.ofNat 39

/-- The double quote, which encloses the operand of `enc.string`. -/
def doubleQuote : Char := Char.ofNat 34

/-- The quotation the scanner is in after `ch`. -/
def quoteAfter (q : Option Char) (ch : Char) : Option Char :=
  match q with
  | some open' => if ch = open' then none else q
  | none => if ch = singleQuote ∨ ch = doubleQuote then some ch else none

/-- The text before a comment `;` or a returned value `->` (R89), both outside quotation. -/
def cutNotes (q : Option Char) : List Char → List Char
  | [] => []
  | ch :: rest =>
    if q = none ∧ (ch = ';' ∨ (ch = '-' ∧ rest.head? = some '>')) then []
    else ch :: cutNotes (quoteAfter q ch) rest

/-- The text without blanks at its ends. -/
def trimBlanks (cs : List Char) : List Char :=
  ((cs.dropWhile (· = ' ')).reverse.dropWhile (· = ' ')).reverse

/-- The operands, separated by commas outside quotation (R89). -/
def splitOperands (q : Option Char) : List Char → List (List Char)
  | [] => [[]]
  | ch :: rest =>
    match splitOperands (quoteAfter q ch) rest with
    | [] => [[ch]]
    | w :: ws => if q = none ∧ ch = ',' then [] :: w :: ws else (ch :: w) :: ws

/-- A digit below 16 (R11). -/
def digitValue (ch : Char) : Option Nat :=
  let n := ch.toNat
  if 48 ≤ n ∧ n ≤ 57 then some (n - 48)
  else if 97 ≤ n ∧ n ≤ 102 then some (n - 87)
  else if 65 ≤ n ∧ n ≤ 70 then some (n - 55)
  else none

/-- The number the digits of a base spell, after `acc`. -/
def numberFrom (base acc : Nat) : List Char → Option Nat
  | [] => some acc
  | ch :: rest =>
    match digitValue ch with
    | some d => if d < base then numberFrom base (acc * base + d) rest else none
    | none => none

/-- A number in a base, of at least one digit. -/
def numberIn (base : Nat) (cs : List Char) : Option Nat := if cs = [] then none else numberFrom base 0 cs

/-- A literal: `0b` binary, `0x` hexadecimal (R11), else decimal. -/
def numberLiteral : List Char → Option Nat
  | '0' :: 'x' :: ds => numberIn 16 ds
  | '0' :: 'b' :: ds => numberIn 2 ds
  | ds => numberIn 10 ds

/-- A literal below `2 ^ w`. DEDUCED that a `<sym>` literal is written like every other, log entry 18. Safe. -/
def sizedLiteral (w : Nat) (cs : List Char) : Option (BitVec w) :=
  match numberLiteral cs with
  | some n => if n < 2 ^ w then some (BitVec.ofNat w n) else none
  | none => none

/-- The byte of a character, if it is one byte. -/
def charByte (ch : Char) : Option Byte := if ch.toNat < 256 then some (BitVec.ofNat 8 ch.toNat) else none

/-- `<imm8>` (R89): a literal or a character in single quotes. -/
def byteOperand : List Char → Option Byte
  | [a, ch, b] => if a = singleQuote ∧ b = singleQuote then charByte ch else sizedLiteral 8 [a, ch, b]
  | cs => sizedLiteral 8 cs

/-- The bytes of characters. -/
def charBytes : List Char → Option (List Byte)
  | [] => some []
  | ch :: rest =>
    match charByte ch, charBytes rest with
    | some b, some bs => some (b :: bs)
    | _, _ => none

/-- The operand of `enc.string` (R90): characters in double quotes. -/
def stringOperand (cs : List Char) : Option (List Byte) :=
  if 2 ≤ cs.length ∧ cs.head? = some doubleQuote ∧ cs.getLast? = some doubleQuote then charBytes (cs.drop 1).dropLast
  else none

/-- The symbol names (R14). -/
def symbolNames : List (List Char × Symbol) := [
  (['C', 'l', 'o', 's', 'e', 'd'], .closed),
  (['D', '0'], .d0),
  (['D', '1'], .d1),
  (['D', '2'], .d2),
  (['D', '3'], .d3),
  (['D', '4'], .d4),
  (['M', 'a', 'r', 'k', '1'], .mark1),
  (['M', 'a', 'r', 'k', '2'], .mark2)]

/-- `<sym>` (R89). -/
def symOperand (cs : List Char) : Option SymOperand :=
  match symbolNames.lookup cs with
  | some s => some (.name s)
  | none => (sizedLiteral 3 cs).map .literal

/-- `<sym>, <sym>, ...`, at least one. -/
def symOperands : List (List Char) → Option (List SymOperand)
  | [] => none
  | [w] => (symOperand w).map fun s => [s]
  | w :: rest =>
    match symOperand w, symOperands rest with
    | some s, some ss => some (s :: ss)
    | _, _ => none

/-- A line with no operand. -/
def noOperand (l : AsmLine) (ws : List (List Char)) : Option AsmLine := if ws = [[]] then some l else none

/-- A line with one operand. -/
def oneOperand {α : Type} (read : List Char → Option α) (mk : α → AsmLine) : List (List Char) → Option AsmLine
  | [w] => (read w).map mk
  | _ => none

/-- A line with two operands. -/
def twoOperands {α β : Type} (readA : List Char → Option α) (readB : List Char → Option β) (mk : α → β → AsmLine) :
    List (List Char) → Option AsmLine
  | [w, x] =>
    match readA w, readB x with
    | some a, some b => some (mk a b)
    | _, _ => none
  | _ => none

/-- The mnemonics of R89 and R90, each with the reader of its operands. -/
def asmTable : List (String × (List (List Char) → Option AsmLine)) := [
  ("enc.byte", oneOperand byteOperand .encByte),
  ("enc.sym", noOperand .encSym),
  ("enc.setprev", oneOperand symOperand .encSetPrev),
  ("dec.sym", oneOperand symOperand .decSym),
  ("dec.flush", noOperand .decFlush),
  ("dec.setprev", oneOperand symOperand .decSetPrev),
  ("dec.result", noOperand .decResult),
  ("rom.offset", oneOperand symOperand .romOffset),
  ("rom.emit", twoOperands (sizedLiteral 2) symOperand .romEmit),
  ("obs", twoOperands symOperand symOperand .obs),
  ("fmd.class", oneOperand symOperand .fmdClass),
  ("reset", noOperand .reset),
  ("enc.frame", oneOperand byteOperand .encFrame),
  ("enc.string", oneOperand stringOperand .encString),
  ("dec.stream", fun ws => (symOperands ws).map .decStream),
  ("dec.frame", fun ws => (symOperands ws).map .decFrame)]

/-- A line of text (R89): none when it is no line of the syntax. -/
def readLine (text : List Char) : Option AsmLine :=
  let cs := trimBlanks (cutNotes none text)
  let operands := (splitOperands none (cs.dropWhile (· ≠ ' '))).map trimBlanks
  match asmTable.lookup (String.ofList (cs.takeWhile (· ≠ ' '))) with
  | some read => read operands
  | none => none

end Sys2Proof.Machine
end

