-- ==== Sys2Proof/Machine/RomContents.lean ====
section
/-! DEFINITION. The ROM contents the spec lists for the default `SYMBOL_CODE` (R116 to R118), transcribed entry by entry. The
block's reads are `romReadOffset`, `romReadEmit` and `romReadDval`; these lists are what a statement holds them against. -/

namespace Sys2Proof.Machine

/-- Table `OFFSET` (R116), address 0 first. -/
def offsetContents : List (BitVec 3) := [0, 1, 2, 3, 4, 5, 0, 0]

/-- Table `EMIT` (R117), address 0 first, four entries (v = 0..3) for each previous code. -/
def emitContents : List Code :=
  [0b001, 0b010, 0b011, 0b100] ++
  [0b010, 0b011, 0b100, 0b101] ++
  [0b011, 0b100, 0b101, 0b001] ++
  [0b100, 0b101, 0b001, 0b010] ++
  [0b101, 0b001, 0b010, 0b011] ++
  [0b001, 0b010, 0b011, 0b100] ++
  [0b001, 0b010, 0b011, 0b100] ++
  [0b001, 0b010, 0b011, 0b100]

/-- Table `DVAL` (R118), address 0 first, one row of eight entries for each incoming code. -/
def dvalContents : List Value :=
  [0, 0, 0, 0, 0, 0, 0, 0] ++
  [0, 0, 3, 2, 1, 0, 0, 0] ++
  [1, 0, 0, 3, 2, 1, 1, 1] ++
  [2, 1, 0, 0, 3, 2, 2, 2] ++
  [3, 2, 1, 0, 0, 3, 3, 3] ++
  [0, 3, 2, 1, 0, 0, 0, 0] ++
  [0, 0, 0, 0, 0, 0, 0, 0] ++
  [0, 0, 0, 0, 0, 0, 0, 0]

/-- The outcome words of V3 (R152 in the words of R75), address `{code(incoming), code(previous)}`, address 0 first. -/
def outcomeContents : List (BitVec 5) :=
  [0b00000, 0b00100, 0b00100, 0b00100, 0b00100, 0b00100, 0b00100, 0b00100] ++
  [0b10000, 0b00000, 0b10011, 0b10010, 0b10001, 0b10000, 0b10000, 0b10000] ++
  [0b10001, 0b10000, 0b00000, 0b10011, 0b10010, 0b10001, 0b10001, 0b10001] ++
  [0b10010, 0b10001, 0b10000, 0b00000, 0b10011, 0b10010, 0b10010, 0b10010] ++
  [0b10011, 0b10010, 0b10001, 0b10000, 0b00000, 0b10011, 0b10011, 0b10011] ++
  [0b10000, 0b10011, 0b10010, 0b10001, 0b10000, 0b00000, 0b10000, 0b10000] ++
  [0b01100, 0b01100, 0b01100, 0b01100, 0b01100, 0b01100, 0b00000, 0b01100] ++
  [0b01000, 0b01000, 0b01000, 0b01000, 0b01000, 0b01000, 0b01000, 0b00000]

/-- The class words of V2 (R150 in the words of R76), address 0 first. -/
def classContents : List (BitVec 5) :=
  [0b00000, 0b01000, 0b01001, 0b01010, 0b01011, 0b01100, 0b11000, 0b10000]

end Sys2Proof.Machine
end

