-- ==== Sys2Proof/Machine/Reference.lean ====
section
/-! DEFINITION. The source's own functions over symbols, `encode_byte` (R134) and `decode_byte` (R175), and the host that
carries symbols from the encoder to the decoder (R176). The machine does not run these: statements hold it against them. -/

namespace Sys2Proof.Machine

/-- `encode_byte(b, p)` (R134): four data symbols, each against the symbol before it, then the marker. -/
def encodeByte (c : Config) (b : Byte) (p : Symbol) : List Symbol :=
  let s1 := emit (chunk 0 b) p
  let s2 := emit (chunk 1 b) s1
  let s3 := emit (chunk 2 b) s2
  let s4 := emit (chunk 3 b) s3
  [s1, s2, s3, s4, markerSymbol c.encMarker]

/-- The byte of a frame's data values, the oldest first: the last four, most significant first (R55). -/
def packValues (vs : List Value) : Byte := vs.foldl shiftIn 0x00#8

/-- What `decode_byte` comes to on a sequence. -/
inductive Scan where
  /-- The frame ended with this status and these data values, after reading this many symbols. -/
  | ended (st : Status) (values : List Value) (consumed : Nat)
  /-- The sequence ended first: this many transitions were counted, with these data values. -/
  | unfinished (counted : Nat) (values : List Value)
  deriving DecidableEq, Repr

/-- The loop of `decode_byte` (R175, §4.5): `prev` is the symbol before, `counted` the transitions examined, `vs` the data
values, `used` the symbols read. -/
def scanFrame (c : Config) (prev : Symbol) (counted : Nat) (vs : List Value) (used : Nat) : List Symbol → Scan
  | [] => .unfinished counted vs
  | x :: rest =>
    if x = prev then
      if c.idleCounts then
        if counted + 1 = c.decBudget then .ended .errFraming vs (used + 1)
        else scanFrame c x (counted + 1) vs (used + 1) rest
      else scanFrame c x counted vs (used + 1) rest
    else
      match classify x with
      | .closed => .ended .errChannelClosed vs (used + 1)
      | .mark1 => .ended .okMark1 vs (used + 1)
      | .mark2 => .ended .okMark2 vs (used + 1)
      | .data _ =>
        if counted + 1 = c.decBudget then .ended .errFraming (vs ++ [dval x prev]) (used + 1)
        else scanFrame c x (counted + 1) (vs ++ [dval x prev]) (used + 1) rest

/-- `decode_byte` on the symbols from the cursor on, `prev` being the symbol before the cursor (R175). -/
def decodeByte (c : Config) (prev : Symbol) (symbols : List Symbol) : Scan := scanFrame c prev 0 [] 0 symbols

/-- Transactions one after another. -/
def runAll : List Instr → State → Host.Outcome State Fault Refusal
  | [], s => .next s
  | i :: rest, s => andThen (exec i s) (runAll rest)

/-- The value the newest event returned. -/
def lastReturned (s : State) : Option HostValue :=
  match s.host.trace with
  | .fired _ out :: _ => out
  | .sampled _ :: _ => none
  | [] => none

/-- The host takes a result as soon as one waits (R176, R237). -/
def takeResult (s : State) : Host.Outcome State Fault Refusal :=
  if s.dec.resValid then exec .decResult s else .next s

/-- The host gives the decoder the code `k`, `n` times in a row (R176). -/
def feedSymbol (k : Code) : Nat → State → Host.Outcome State Fault Refusal
  | 0, s => .next s
  | n + 1, s => andThen (exec (.decSym k) s) fun t => andThen (takeResult t) (feedSymbol k n)

/-- The host takes one symbol from the encoder and gives it to the decoder `extra + 1` times (R176). -/
def carrySymbol (extra : Nat) (s : State) : Host.Outcome State Fault Refusal :=
  andThen (exec .encSym s) fun t =>
    match lastReturned t with
    | some (.symbolCode k) => feedSymbol k (extra + 1) t
    | _ => .next t

/-- The host carries one symbol for each entry, each repeated that many extra times. -/
def carrySymbols : List Nat → State → Host.Outcome State Fault Refusal
  | [], s => .next s
  | extra :: rest, s => andThen (carrySymbol extra s) (carrySymbols rest)

/-- The host sends bytes over the loop, each with the extra repeats of its five symbols (R176). -/
def loopback : List (Byte × List Nat) → State → Host.Outcome State Fault Refusal
  | [], s => .next s
  | (b, extras) :: rest, s =>
    andThen (exec (.encByte b) s) fun t => andThen (carrySymbols extras t) (loopback rest)

/-- R176 with `IDLE_COUNTS = true`: every frame sees at most `DEC_BUDGET - 5` Idle observations. The repeats of a frame's
marker are seen by the frame after it. -/
def idlesFit (budget carried : Nat) : List (Byte × List Nat) → Bool
  | [] => decide (carried + 5 ≤ budget)
  | (_, extras) :: rest =>
    decide (carried + (extras.take 4).sum + 5 ≤ budget) && idlesFit budget (extras.getD 4 0) rest

/-- The result words in a trace, newest first. -/
def resultWords : List Event → List (BitVec 14)
  | [] => []
  | .fired .decResult (some (.resultWord r)) :: rest => r :: resultWords rest
  | _ :: rest => resultWords rest

/-- The symbol codes the encoder has handed out since the last `RESET`, newest first (R52, R135). -/
def handedOut : List Event → List Code
  | [] => []
  | .fired .reset _ :: _ => []
  | .fired .encSym (some (.symbolCode k)) :: rest => k :: handedOut rest
  | _ :: rest => handedOut rest

end Sys2Proof.Machine
end

