-- ==== Sys2Proof/Safety.lean ====
section
/-! DEFINITION. What claims about a run are stated in: the invariants of R38 and R135, the agents of R24, the end of a run
(R243), the premise of a link (R233). -/

namespace Sys2Proof.Machine

/-- R38, items 1 and 6. -/
structure EncoderInv (e : Encoder) : Prop where
  phase_le : e.phase.toNat ≤ 4
  idle_phase : e.busy = false → e.phase = 0#3
  prev_data : e.busy = true → 1 ≤ e.phase.toNat → isData e.prev = true

/-- R38, items 2 to 5, and R170, R33: while a result waits no frame is in progress. -/
structure DecoderInv (c : Config) (d : Decoder) : Prop where
  nslots_le : d.nslots.toNat ≤ d.count.toNat
  count_lt : d.count.toNat < c.decBudget
  empty_frame : d.count = 0#4 → d.acc = 0x00#8 ∧ d.nslots = 0#4
  idle_free : c.idleCounts = false → d.count = d.nslots
  res_le : d.resNslots.toNat ≤ c.decBudget
  res_empty : d.resValid = true → d.count = 0#4

/-- The invariant of R38 over the whole machine, for an instance the spec describes (R6 to R9). -/
structure MachineInv (s : State) : Prop where
  config : s.config.wellFormed = true
  enc : EncoderInv s.enc
  dec : DecoderInv s.config s.dec

/-- No two neighbours are equal (R135, item 2). -/
def noRepeat : List Code → Bool
  | [] => true
  | [_] => true
  | x :: y :: rest => decide (x ≠ y) && noRepeat (y :: rest)

/-- Newest first, the list is `n` data symbols of an open frame and then whole frames, each a marker `ENC_MARKER` after four
data symbols (R135, item 1). -/
def framedAt (c : Config) : Nat → List Code → Bool
  | 0, [] => true
  | _ + 1, [] => false
  | 0, k :: rest => decide (k = code c.symbolCode (markerSymbol c.encMarker)) && framedAt c 4 rest
  | n + 1, k :: rest => isData (sym c.symbolCode k) && framedAt c n rest

/-- The newest symbol handed out is the encoder's channel state while a frame is being handed out (R25). -/
def newestIsPrev (s : State) : Prop :=
  s.enc.busy = true → 1 ≤ s.enc.phase.toNat →
    (handedOut s.host.trace).head? = some (code s.config.symbolCode s.enc.prev)

/-- R135, items 1 to 3, over the symbols handed out since the last `RESET`. -/
structure StreamInv (s : State) : Prop where
  framed : framedAt s.config s.enc.phase.toNat (handedOut s.host.trace) = true
  no_repeat : noRepeat (handedOut s.host.trace) = true
  never_closed : ∀ k ∈ handedOut s.host.trace, k ≠ code s.config.symbolCode .closed
  newest : newestIsPrev s

/-- The transactions that read or write the encoder's registers only (R24). -/
def isEncoderOp : Instr → Bool
  | .encByte _ => true
  | .encSym => true
  | .encSetPrev _ => true
  | .decSym _ => false
  | .decFlush => false
  | .decSetPrev _ => false
  | .decResult => false
  | .romOffset _ => false
  | .romEmit _ _ => false
  | .observe _ _ => false
  | .fmdClassify _ => false
  | .reset => false

/-- The transactions that read or write the decoder's registers only (R24). -/
def isDecoderOp : Instr → Bool
  | .encByte _ => false
  | .encSym => false
  | .encSetPrev _ => false
  | .decSym _ => true
  | .decFlush => true
  | .decSetPrev _ => true
  | .decResult => true
  | .romOffset _ => false
  | .romEmit _ _ => false
  | .observe _ _ => false
  | .fmdClassify _ => false
  | .reset => false

/-- The probe transactions, which touch no register (R60). -/
def isProbe : Instr → Bool
  | .encByte _ => false
  | .encSym => false
  | .encSetPrev _ => false
  | .decSym _ => false
  | .decFlush => false
  | .decSetPrev _ => false
  | .decResult => false
  | .romOffset _ => true
  | .romEmit _ _ => true
  | .observe _ _ => true
  | .fmdClassify _ => true
  | .reset => false

/-- The state after a transaction fired: the registers it leaves, the value it returned, and nothing else changed. -/
def afterFiring (i : Instr) (out : Option HostValue) (e : Encoder) (d : Decoder) (s : State) : State where
  config := s.config
  enc := e
  dec := d
  host :=
    { program := s.host.program
      waiting := s.host.waiting
      trace := .fired i out :: s.host.trace
      draws := s.host.draws }

/-- The state after a transaction that waits: the host holds it, and nothing else changed (R205). -/
def afterWaiting (i : Instr) (s : State) : State where
  config := s.config
  enc := s.enc
  dec := s.dec
  host :=
    { program := s.host.program
      waiting := s.host.waiting ++ [i]
      trace := s.host.trace
      draws := s.host.draws }

/-- The decoder's registers after a frame ended with this status, byte and slot count on the symbol `x` (R170). -/
def afterFrameEnd (x : Symbol) (st : Status) (a : Byte) (n : BitVec 4) : Decoder where
  prev := x
  acc := 0x00#8
  count := 0#4
  nslots := 0#4
  resValid := true
  resStatus := st
  resNslots := n
  resByte := a

/-- The op of a reserved word (R81). -/
def isReservedOp (t : Word) : Bool :=
  opField t == 0x0#4 || opField t == 0xC#4 || opField t == 0xD#4 || opField t == 0xE#4

/-- The run is quiescent (R243). -/
def quiescent (s : State) : Bool := !s.enc.busy && !s.dec.resValid

/-- The two sides of a link start from the same channel state with no frame in progress in either (R176, R233). -/
def linkReady (s : State) : Prop :=
  s.enc.prev = s.dec.prev ∧ s.enc.busy = false ∧ s.dec.count = 0#4 ∧ s.dec.resValid = false

/-- The status of a frame that ends with the encoder's marker (R176). -/
def okStatus : Marker → Status
  | .mark1 => .okMark1
  | .mark2 => .okMark2

end Sys2Proof.Machine
end

