-- ==== Sys2Proof/Certificates/Slice0/Obligations.lean ====
section
/-! DEFINITION. The statements for the provers. Each docstring names the rules of spec/ it states or rests on. -/

open Sys2Proof Sys2Proof.Machine

/-! ## Words and steps -/

/-- R79, R80, R89, R91: the decoder and the encoder are inverse to each other, on every word and every transaction. -/
def Obligations.DecodeInvertsEncode : Prop :=
  ∀ (t : Word) (i : Instr), decode t = .ok i ↔ encode i = t

/-- R80: a word decodes exactly when a row of the opcode table admits it, and then to that row's transaction. -/
def Obligations.DecodeFollowsOpcodeTable : Prop :=
  ∀ t : Word,
    (∀ r ∈ opcodeTable, r.admits t = true → ∃ i, decode t = .ok i ∧ i.mnemonic = r.mnemonic) ∧
    (∀ i, decode t = .ok i → ∃ r ∈ opcodeTable, r.admits t = true ∧ r.mnemonic = i.mnemonic)

/-- R80: words written out from the encodings of R80, one for each transaction, decode to what they stand for. -/
def Obligations.WrittenWordsDecode : Prop :=
  decode 0x1048#16 = .ok (.encByte 0x48#8) ∧
  decode 0x2000#16 = .ok .encSym ∧
  decode 0x3004#16 = .ok (.encSetPrev 0b100#3) ∧
  decode 0x4002#16 = .ok (.decSym 0b010#3) ∧
  decode 0x5000#16 = .ok .decFlush ∧
  decode 0x6007#16 = .ok (.decSetPrev 0b111#3) ∧
  decode 0x7000#16 = .ok .decResult ∧
  decode 0x8005#16 = .ok (.romOffset 0b101#3) ∧
  decode 0x9024#16 = .ok (.romEmit 0b10#2 0b100#3) ∧
  decode 0xA014#16 = .ok (.observe 0b001#3 0b100#3) ∧
  decode 0xB005#16 = .ok (.fmdClassify 0b101#3) ∧
  decode 0xF000#16 = .ok .reset

/-- R81: a step whose next offer is a word of a reserved op, or of a defined op with a 1 in a payload bit its row does not
name, is refused by name, in any state of the registers; no row of the table admits a word of a reserved op, and a word of a
defined op that no row admits is an ill-formed one. (That held offers come first is the model's choice, log entry 2.) -/
def Obligations.ReservedAndIllFormedWordsRefused : Prop :=
  ∀ (t : Word) (s : State) (rest : List HostInput),
    (∀ i ∈ s.host.waiting, enabled i s = false) → s.host.program = .word t :: rest →
    (isReservedOp t = true →
      (∀ r ∈ opcodeTable, r.admits t = false) ∧ decode t = .error .reservedOp ∧ step s = .refused (.reservedOp t)) ∧
    (isReservedOp t = false → (∀ r ∈ opcodeTable, r.admits t = false) →
      decode t = .error .illFormed ∧ step s = .refused (.illFormedWord t))

/-- R79: when no held offer is enabled and the next offer is a word that decodes to `i`, the step runs `i`, with the word
taken from the offers. -/
def Obligations.StepRunsOfferedTransaction : Prop :=
  ∀ (t : Word) (i : Instr) (s : State) (rest : List HostInput),
    (∀ j ∈ s.host.waiting, enabled j s = false) → s.host.program = .word t :: rest → decode t = .ok i →
    step s = exec i { s with host := { s.host with program := rest } }

/-- R82, R87, R208 (that held offers fire in this order is the model's choice of log entry 2): when a held offer has become
enabled, the step fires the held enabled offer that comes first in the order of one edge, the oldest where several are of one
rank, and takes it from the held offers. The order, spelled out: `RESET` before every other; `ENC_SET_PREV` before `ENC_BYTE`;
`DEC_SET_PREV` before `DEC_FLUSH` and `DEC_SYM`; `DEC_FLUSH` before `DEC_SYM`. -/
def Obligations.StepFiresHeldOffer : Prop :=
  ∀ (i : Instr) (s : State), i ∈ s.host.waiting → enabled i s = true →
    ∃ (j : Instr) (older newer : List Instr), s.host.waiting = older ++ j :: newer ∧ enabled j s = true ∧
      (∀ k ∈ older, enabled k s = true → portRank j < portRank k) ∧
      (∀ k ∈ newer, enabled k s = true → portRank j ≤ portRank k) ∧
      (.reset ∈ s.host.waiting → j = .reset) ∧
      (∀ b, j = .encByte b → ∀ x, .encSetPrev x ∈ s.host.waiting → enabled (.encSetPrev x) s = false) ∧
      (j = .decFlush → ∀ x, .decSetPrev x ∈ s.host.waiting → enabled (.decSetPrev x) s = false) ∧
      (∀ y, j = .decSym y → (.decFlush ∈ s.host.waiting → enabled .decFlush s = false) ∧
        ∀ x, .decSetPrev x ∈ s.host.waiting → enabled (.decSetPrev x) s = false) ∧
      step s = exec j { s with host := { s.host with waiting := older ++ newer } }

/-- R87: when no held offer is enabled and the next offer is a rising edge, the step is that edge. -/
def Obligations.StepRunsClockEdge : Prop :=
  ∀ (p : PortInputs) (s : State) (rest : List HostInput),
    (∀ j ∈ s.host.waiting, enabled j s = false) → s.host.program = .edge p :: rest →
    step s = clockEdge p { s with host := { s.host with program := rest } }

/-- R216 (and log entry 16): with no offer that could fire, a step changes nothing. -/
def Obligations.StepHoldsAllState : Prop :=
  ∀ s : State, (∀ j ∈ s.host.waiting, enabled j s = false) → s.host.program = [] → step s = .next s

/-- R82, R205 (holding the offer is the model's choice of log entry 2): a transaction whose enabling condition does not hold
changes no register and returns nothing; the host goes on offering it. -/
def Obligations.DisabledTransactionWaits : Prop :=
  ∀ s : State,
    (s.enc.busy = true →
      (∀ b, exec (.encByte b) s = .next (afterWaiting (.encByte b) s)) ∧
      (∀ x, exec (.encSetPrev x) s = .next (afterWaiting (.encSetPrev x) s))) ∧
    (s.enc.busy = false → exec .encSym s = .next (afterWaiting .encSym s)) ∧
    (s.dec.resValid = true →
      (∀ x, exec (.decSym x) s = .next (afterWaiting (.decSym x) s)) ∧
      exec .decFlush s = .next (afterWaiting .decFlush s) ∧
      (∀ x, exec (.decSetPrev x) s = .next (afterWaiting (.decSetPrev x) s))) ∧
    (s.dec.resValid = false → exec .decResult s = .next (afterWaiting .decResult s))

/-- R82: what can lift each wait, and that it does. An `ENC_SYM` waits for an `ENC_BYTE`; an `ENC_BYTE` or `ENC_SET_PREV` for the
`ENC_SYM` that emits the marker; a decoder input for a `DEC_RESULT`; a `DEC_RESULT` for the `DEC_SYM` or `DEC_FLUSH` that ends a
frame; and `RESET` lifts the waits of all but `ENC_SYM` and `DEC_RESULT`, which wait after it (log entry 3). -/
def Obligations.WaitsAreLiftedByTheirAgent : Prop :=
  (∀ (i j : Instr) (s t : State), MachineInv s → enabled i s = false → exec j s = .next t → enabled i t = true →
    match i with
    | .encSym => ∃ b, j = .encByte b
    | .encByte _ => (j = .encSym ∧ s.enc.phase = 4#3) ∨ j = .reset
    | .encSetPrev _ => (j = .encSym ∧ s.enc.phase = 4#3) ∨ j = .reset
    | .decResult => (∃ x, j = .decSym x) ∨ j = .decFlush
    | .decSym _ => j = .decResult ∨ j = .reset
    | .decFlush => j = .decResult ∨ j = .reset
    | .decSetPrev _ => j = .decResult ∨ j = .reset
    | .romOffset _ => False
    | .romEmit _ _ => False
    | .observe _ _ => False
    | .fmdClassify _ => False
    | .reset => False) ∧
  ∀ s : State,
    (s.enc.busy = false → ∀ b, ∃ t, exec (.encByte b) s = .next t ∧ enabled .encSym t = true) ∧
    (s.enc.busy = true → s.enc.phase = 4#3 → ∃ t, exec .encSym s = .next t ∧
      (∀ b, enabled (.encByte b) t = true) ∧ ∀ x, enabled (.encSetPrev x) t = true) ∧
    (s.dec.resValid = true → ∃ t, exec .decResult s = .next t ∧
      (∀ x, enabled (.decSym x) t = true) ∧ enabled .decFlush t = true ∧ ∀ x, enabled (.decSetPrev x) t = true) ∧
    (s.config.symbolCode.wellFormed = true → s.dec.resValid = false → ∀ x : Symbol, isData x = false → x ≠ s.dec.prev →
      ∃ t, exec (.decSym (code s.config.symbolCode x)) s = .next t ∧ enabled .decResult t = true) ∧
    (s.config.symbolCode.wellFormed = true → s.dec.resValid = false → s.dec.count.toNat + 1 = s.config.decBudget →
      ∀ x : Symbol, (isData x = true ∧ x ≠ s.dec.prev) ∨ (x = s.dec.prev ∧ s.config.idleCounts = true) →
        ∃ t, exec (.decSym (code s.config.symbolCode x)) s = .next t ∧ enabled .decResult t = true) ∧
    (s.dec.resValid = false → s.dec.count ≠ 0#4 → ∃ t, exec .decFlush s = .next t ∧ enabled .decResult t = true) ∧
    ∃ t, exec .reset s = .next t ∧ (∀ b, enabled (.encByte b) t = true) ∧ (∀ x, enabled (.encSetPrev x) t = true) ∧
      (∀ x, enabled (.decSym x) t = true) ∧ enabled .decFlush t = true ∧ (∀ x, enabled (.decSetPrev x) t = true) ∧
      enabled .encSym t = false ∧ enabled .decResult t = false

/-- No transaction stops, in any state of the registers. R136 and R204 say so of the encoder and the combinational sub-blocks,
R200 and R171 to R174 of the decoder, whose errors are result statuses, and R230 of `RESET`. Where a transaction is not enabled
R82 and R205 give it no step; that its wait is a next state, with the offer held, is the model's choice of log entry 2. -/
def Obligations.NoTransactionStops : Prop :=
  ∀ (i : Instr) (s : State), ∃ t, exec i s = .next t

/-! ## transition_table_rom -/

/-- R110: `ROM_OFFSET` returns the offset of the symbol whose code it is given, under every `SYMBOL_CODE` and, under the
default one, the code itself for `001..101` and 0 otherwise; it changes no register. -/
def Obligations.RomOffsetReturnsOffset : Prop :=
  ∀ s : State, s.config.symbolCode.wellFormed = true →
    (∀ x : Symbol,
      exec (.romOffset (code s.config.symbolCode x)) s =
        .next (afterFiring (.romOffset (code s.config.symbolCode x))
          (some (.offsetWord (match x with
            | .closed => 0#3
            | .d0 => 1#3
            | .d1 => 2#3
            | .d2 => 3#3
            | .d3 => 4#3
            | .d4 => 5#3
            | .mark1 => 0#3
            | .mark2 => 0#3))) s.enc s.dec s)) ∧
    (s.config.symbolCode = SymbolCode.standard → ∀ k : Code,
      exec (.romOffset k) s =
        .next (afterFiring (.romOffset k) (some (.offsetWord (if 0b001#3 ≤ k ∧ k ≤ 0b101#3 then k else 0#3)))
          s.enc s.dec s))

/-- R112, R120: `ROM_EMIT v, p` returns the code of the data symbol at cycle index `(v + offset(p)) mod 5`, and changes no
register. -/
def Obligations.RomEmitReturnsNextSymbol : Prop :=
  ∀ (s : State) (v : Value) (p : Symbol), s.config.symbolCode.wellFormed = true →
    exec (.romEmit v (code s.config.symbolCode p)) s =
      .next (afterFiring (.romEmit v (code s.config.symbolCode p))
        (some (.symbolCode (code s.config.symbolCode (dataSymbol ((v.toNat + offset p) % 5))))) s.enc s.dec s)

/-- R113: what `emit` gives is a data symbol different from `p`: for `p = Dk` it is `data((v + k + 1) mod 5)`, and against a
symbol of offset 0 it is `data(v)`, never `D4`; for fixed `p` it is injective, and its image is the four other data symbols, or
`D0` to `D3`. -/
def Obligations.EmitProperties : Prop :=
  ∀ (v : Value) (p : Symbol),
    isData (emit v p) = true ∧
    emit v p ≠ p ∧
    (isData p = true → emit v p = dataSymbol ((v.toNat + indexOf p + 1) % 5)) ∧
    (offset p = 0 ↔ p = .closed ∨ p = .mark1 ∨ p = .mark2) ∧
    (offset p = 0 → emit v p = dataSymbol v.toNat ∧ emit v p ≠ .d4) ∧
    (∀ w : Value, emit w p = emit v p → w = v) ∧
    (∀ x : Symbol, (∃ w : Value, emit w p = x) ↔
      isData x = true ∧ (isData p = true → x ≠ p) ∧ (isData p = false → x ≠ .d4))

/-- R115, R152 (the round trip): the symbol `ROM_EMIT v, p` returns is different from `p`, and `OBSERVE` of it against `p`
returns `Data(v)`, under every `SYMBOL_CODE`, for every code `p`. -/
def Obligations.ObserveInvertsRomEmit : Prop :=
  ∀ (s : State) (v : Value) (p : Code), s.config.symbolCode.wellFormed = true →
    ∃ (k : Code) (t u : State),
      exec (.romEmit v p) s = .next t ∧ lastReturned t = some (.symbolCode k) ∧ k ≠ p ∧
      exec (.observe k p) t = .next u ∧ lastReturned u = some (.outcomeWord (0b100#3 ++ v))

/-- R116, R117, R118: under the default `SYMBOL_CODE` the ROM holds the listed contents, as the probes and the decoder's
read of the `DVAL` table return them. -/
def Obligations.RomHoldsListedContents : Prop :=
  ∀ s : State, s.config.symbolCode = SymbolCode.standard →
    (∀ a : Code, ∃ t, exec (.romOffset a) s = .next t ∧
      (lastReturned t).isSome = true ∧ lastReturned t = (offsetContents[a.toNat]?).map .offsetWord) ∧
    (∀ (a : Code) (v : Value), ∃ t, exec (.romEmit v a) s = .next t ∧
      (lastReturned t).isSome = true ∧ lastReturned t = (emitContents[(a ++ v).toNat]?).map .symbolCode) ∧
    (∀ a : BitVec 6, some (romReadDval s.config.symbolCode a) = dvalContents[a.toNat]?)

/-! ## frame_marker_detector -/

/-- R151, R154, R206: `OBSERVE i, p` tests in the order Idle, ChannelDown, markers, Data, returns the outcome word of R75, and
changes no register. -/
def Obligations.ObserveFollowsStepOrder : Prop :=
  ∀ (s : State) (i p : Symbol), s.config.symbolCode.wellFormed = true →
    exec (.observe (code s.config.symbolCode i) (code s.config.symbolCode p)) s =
      .next (afterFiring (.observe (code s.config.symbolCode i) (code s.config.symbolCode p))
        (some (.outcomeWord (
          if i = p then 0b00000#5
          else if i = .closed then 0b00100#5
          else if i = .mark1 then 0b01000#5
          else if i = .mark2 then 0b01100#5
          else 0b100#3 ++ dval i p))) s.enc s.dec s)

/-- R152: under the default `SYMBOL_CODE`, `OBSERVE` returns the outcome of the table for each of the 64 pairs. -/
def Obligations.ObserveReturnsListedOutcome : Prop :=
  ∀ (s : State) (i p : Code), s.config.symbolCode = SymbolCode.standard →
    ∃ t, exec (.observe i p) s = .next t ∧ (lastReturned t).isSome = true ∧
      lastReturned t = (outcomeContents[(i ++ p).toNat]?).map .outcomeWord

/-- R150, R153: `FMD_CLASSIFY` returns the class word of R76 for each symbol, under every `SYMBOL_CODE`, and changes no
register. -/
def Obligations.ClassifyReturnsClass : Prop :=
  ∀ (s : State) (x : Symbol), s.config.symbolCode.wellFormed = true →
    exec (.fmdClassify (code s.config.symbolCode x)) s =
      .next (afterFiring (.fmdClassify (code s.config.symbolCode x))
        (some (.classWord (match x with
          | .closed => 0b00000#5
          | .d0 => 0b01000#5
          | .d1 => 0b01001#5
          | .d2 => 0b01010#5
          | .d3 => 0b01011#5
          | .d4 => 0b01100#5
          | .mark1 => 0b10000#5
          | .mark2 => 0b11000#5))) s.enc s.dec s)

/-- R60: the probe transactions have no side effect, and give the same answer any number of times: it depends on the
parameters alone. -/
def Obligations.ProbesHaveNoSideEffect : Prop :=
  ∀ (i : Instr) (s s' : State), isProbe i = true → s.config = s'.config →
    ∃ out : HostValue,
      exec i s = .next (afterFiring i (some out) s.enc s.dec s) ∧
      exec i s' = .next (afterFiring i (some out) s'.enc s'.dec s')

/-! ## line_code_encoder -/

/-- R131: an accepted byte fills `enc_shift`, starts the frame, and leaves `enc_prev` and every other register. -/
def Obligations.EncByteAcceptsByte : Prop :=
  ∀ (s : State) (b : Byte), s.enc.busy = false →
    exec (.encByte b) s =
      .next (afterFiring (.encByte b) none { prev := s.enc.prev, shift := b, phase := 0#3, busy := true } s.dec s)

/-- R130, R132: in the phases 0 to 3 `ENC_SYM` hands out `emit(enc_shift[7:6], enc_prev)`, which becomes `enc_prev`; the
shift register moves by 2 and the phase by 1. -/
def Obligations.EncSymHandsOutDataSymbol : Prop :=
  ∀ s : State, s.config.symbolCode.wellFormed = true → s.enc.busy = true → s.enc.phase < 4#3 →
    exec .encSym s =
      .next (afterFiring .encSym
        (some (.symbolCode (code s.config.symbolCode (emit (s.enc.shift.extractLsb' 6 2) s.enc.prev))))
        { prev := emit (s.enc.shift.extractLsb' 6 2) s.enc.prev
          shift := s.enc.shift <<< 2
          phase := s.enc.phase + 1#3
          busy := true } s.dec s)

/-- R130, R132: in phase 4 `ENC_SYM` hands out the marker `ENC_MARKER`, which becomes `enc_prev`; the encoder is idle again. -/
def Obligations.EncSymHandsOutMarker : Prop :=
  ∀ s : State, s.enc.busy = true → s.enc.phase = 4#3 →
    exec .encSym s =
      .next (afterFiring .encSym (some (.symbolCode (code s.config.symbolCode (markerSymbol s.config.encMarker))))
        { prev := markerSymbol s.config.encMarker, shift := s.enc.shift, phase := 0#3, busy := false } s.dec s)

/-- R132, R135 item 4 (a corner case): a data symbol handed out against `Closed` or a marker is `data(enc_shift[7:6])`. -/
def Obligations.EncSymAfterNonDataSymbol : Prop :=
  ∀ s : State, s.config.symbolCode.wellFormed = true → s.enc.busy = true → s.enc.phase < 4#3 →
    isData s.enc.prev = false →
    ∃ t, exec .encSym s = .next t ∧ t.enc.prev = dataSymbol (s.enc.shift.toNat / 64) ∧ t.enc.prev ≠ .d4 ∧
      lastReturned t = some (.symbolCode (code s.config.symbolCode t.enc.prev))

/-- R133: `ENC_SET_PREV` loads the channel state and nothing else. -/
def Obligations.EncSetPrevLoadsChannelState : Prop :=
  ∀ (s : State) (x : Symbol), s.config.symbolCode.wellFormed = true → s.enc.busy = false →
    exec (.encSetPrev (code s.config.symbolCode x)) s =
      .next (afterFiring (.encSetPrev (code s.config.symbolCode x)) none
        { prev := x, shift := s.enc.shift, phase := s.enc.phase, busy := false } s.dec s)

/-- R134: from an idle encoder, `ENC_BYTE b` and five `ENC_SYM` return the symbols of `encode_byte(b, enc_prev)`, each chunk
against the symbol before it and then the marker, and leave the encoder idle with the marker as channel state. -/
def Obligations.EncodeByteCorrespondence : Prop :=
  ∀ (s : State) (b : Byte) (s1 s2 s3 s4 : Symbol), s.config.symbolCode.wellFormed = true → s.enc.busy = false →
    s1 = emit (b.extractLsb' 6 2) s.enc.prev → s2 = emit (b.extractLsb' 4 2) s1 →
    s3 = emit (b.extractLsb' 2 2) s2 → s4 = emit (b.extractLsb' 0 2) s3 →
    encodeByte s.config b s.enc.prev = [s1, s2, s3, s4, markerSymbol s.config.encMarker] ∧
    ∃ t, runAll [.encByte b, .encSym, .encSym, .encSym, .encSym, .encSym] s = .next t ∧
      t.enc = { prev := markerSymbol s.config.encMarker, shift := 0x00#8, phase := 0#3, busy := false } ∧
      t.dec = s.dec ∧ t.config = s.config ∧
      t.host.program = s.host.program ∧ t.host.waiting = s.host.waiting ∧ t.host.draws = s.host.draws ∧
      t.host.trace =
        .fired .encSym (some (.symbolCode (code s.config.symbolCode (markerSymbol s.config.encMarker)))) ::
        .fired .encSym (some (.symbolCode (code s.config.symbolCode s4))) ::
        .fired .encSym (some (.symbolCode (code s.config.symbolCode s3))) ::
        .fired .encSym (some (.symbolCode (code s.config.symbolCode s2))) ::
        .fired .encSym (some (.symbolCode (code s.config.symbolCode s1))) ::
        .fired (.encByte b) none :: s.host.trace

/-- R135, items 1 to 3: of the symbols handed out since the last `RESET`, each frame is four data symbols and the marker, no two
in a row are equal, none is `Closed`; every step keeps this. -/
def Obligations.StepKeepsStreamInvariant : Prop :=
  ∀ s t : State, MachineInv s → StreamInv s → step s = .next t → StreamInv t

/-- R135: after reset, with any parameters of R6 to R9 and any offers, nothing has been handed out. -/
def Obligations.StreamInvariantAtReset : Prop :=
  ∀ (c : Config) (program : List HostInput) (waiting : List Instr), c.wellFormed = true →
    StreamInv { State.reset with config := c, host := { HostSide.fresh with program := program, waiting := waiting } }

/-- R38 item 7: `enc_prev` is never changed to `Closed` except by `ENC_SET_PREV(Closed)` or `RESET`. -/
def Obligations.ChannelStateNotClosedByEncoding : Prop :=
  ∀ (i : Instr) (s t : State), s.config.wellFormed = true → s.enc.prev ≠ .closed → exec i s = .next t →
    t.enc.prev = .closed → i = .encSetPrev (code s.config.symbolCode .closed) ∨ i = .reset

/-! ## Two agents -/

/-- R24: each agent's transactions read and write only its own registers. An encoder transaction leaves the decoder's
registers, and what it leaves in the encoder and returns depends on the encoder and the parameters alone; and the same the
other way round. -/
def Obligations.AgentsUseOwnRegistersOnly : Prop :=
  ∀ (i : Instr) (s s' : State), s.config = s'.config →
    (isEncoderOp i = true → s.enc = s'.enc →
      ∃ t t', exec i s = .next t ∧ exec i s' = .next t' ∧ t.dec = s.dec ∧ t'.dec = s'.dec ∧ t.enc = t'.enc ∧
        ((∃ out, t.host.trace = .fired i out :: s.host.trace ∧ t'.host.trace = .fired i out :: s'.host.trace) ∨
          (t.host.trace = s.host.trace ∧ t'.host.trace = s'.host.trace))) ∧
    (isDecoderOp i = true → s.dec = s'.dec →
      ∃ t t', exec i s = .next t ∧ exec i s' = .next t' ∧ t.enc = s.enc ∧ t'.enc = s'.enc ∧ t.dec = t'.dec ∧
        ((∃ out, t.host.trace = .fired i out :: s.host.trace ∧ t'.host.trace = .fired i out :: s'.host.trace) ∨
          (t.host.trace = s.host.trace ∧ t'.host.trace = s'.host.trace)))

/-- R61: an encoder transaction and a decoder transaction give the same registers in either order. -/
def Obligations.AgentsCommute : Prop :=
  ∀ (i j : Instr) (s : State), isEncoderOp i = true → isDecoderOp j = true →
    ∃ a b a' b', exec i s = .next a ∧ exec j a = .next b ∧ exec j s = .next a' ∧ exec i a' = .next b' ∧
      b.enc = b'.enc ∧ b.dec = b'.dec ∧ b.config = b'.config

/-- R36, R41: no step changes a parameter, so none changes what the ROM holds. -/
def Obligations.StepKeepsParameters : Prop :=
  ∀ s t : State, step s = .next t → t.config = s.config

/-! ## line_code_decoder -/

/-- R171, R203: with `IDLE_COUNTS = false`, a symbol equal to `dec_prev` changes no register. -/
def Obligations.DecSymIdleChangesNothing : Prop :=
  ∀ s : State, s.config.symbolCode.wellFormed = true → s.config.idleCounts = false → s.dec.resValid = false →
    exec (.decSym (code s.config.symbolCode s.dec.prev)) s =
      .next (afterFiring (.decSym (code s.config.symbolCode s.dec.prev)) none s.enc s.dec s)

/-- R171, R202: with `IDLE_COUNTS = true`, a symbol equal to `dec_prev` uses one unit of the budget and no slot; at the budget
it ends the frame with `ERR_FRAMING`. -/
def Obligations.DecSymIdleCounted : Prop :=
  ∀ s : State, s.config.symbolCode.wellFormed = true → s.config.idleCounts = true → s.dec.resValid = false →
    (s.dec.count.toNat + 1 < s.config.decBudget →
      exec (.decSym (code s.config.symbolCode s.dec.prev)) s =
        .next (afterFiring (.decSym (code s.config.symbolCode s.dec.prev)) none s.enc
          { s.dec with count := s.dec.count + 1#4 } s)) ∧
    (s.dec.count.toNat + 1 = s.config.decBudget →
      exec (.decSym (code s.config.symbolCode s.dec.prev)) s =
        .next (afterFiring (.decSym (code s.config.symbolCode s.dec.prev)) none s.enc
          (afterFrameEnd s.dec.prev .errFraming s.dec.acc s.dec.nslots) s))

/-- R177, R201: `Closed` after any other symbol ends the frame with `ERR_CHANNEL_CLOSED`, whatever the slot count and the
budget; the result holds the slots and the accumulator so far, and `dec_prev` becomes `Closed`. -/
def Obligations.DecSymChannelDown : Prop :=
  ∀ s : State, s.config.symbolCode.wellFormed = true → s.dec.resValid = false → s.dec.prev ≠ .closed →
    exec (.decSym (code s.config.symbolCode .closed)) s =
      .next (afterFiring (.decSym (code s.config.symbolCode .closed)) none s.enc
        (afterFrameEnd .closed .errChannelClosed s.dec.acc s.dec.nslots) s)

/-- R155, R171, R207: a marker different from `dec_prev` ends the frame with the OK status of that marker, whatever the count:
the budget is not tested. -/
def Obligations.DecSymMarkerEndsFrame : Prop :=
  ∀ s : State, s.config.symbolCode.wellFormed = true → s.dec.resValid = false →
    (s.dec.prev ≠ .mark1 →
      exec (.decSym (code s.config.symbolCode .mark1)) s =
        .next (afterFiring (.decSym (code s.config.symbolCode .mark1)) none s.enc
          (afterFrameEnd .mark1 .okMark1 s.dec.acc s.dec.nslots) s)) ∧
    (s.dec.prev ≠ .mark2 →
      exec (.decSym (code s.config.symbolCode .mark2)) s =
        .next (afterFiring (.decSym (code s.config.symbolCode .mark2)) none s.enc
          (afterFrameEnd .mark2 .okMark2 s.dec.acc s.dec.nslots) s))

/-- R171, R202: a data symbol different from `dec_prev` shifts its value in and uses one slot and one unit of the budget; at the
budget the frame ends with `ERR_FRAMING`, with this slot in its result. -/
def Obligations.DecSymDataShiftsIn : Prop :=
  ∀ (s : State) (x : Symbol), s.config.symbolCode.wellFormed = true → s.dec.resValid = false → isData x = true →
    x ≠ s.dec.prev →
    (s.dec.count.toNat + 1 < s.config.decBudget →
      exec (.decSym (code s.config.symbolCode x)) s =
        .next (afterFiring (.decSym (code s.config.symbolCode x)) none s.enc
          { s.dec with
            prev := x
            acc := s.dec.acc.extractLsb' 0 6 ++ dval x s.dec.prev
            nslots := s.dec.nslots + 1#4
            count := s.dec.count + 1#4 } s)) ∧
    (s.dec.count.toNat + 1 = s.config.decBudget →
      exec (.decSym (code s.config.symbolCode x)) s =
        .next (afterFiring (.decSym (code s.config.symbolCode x)) none s.enc
          (afterFrameEnd x .errFraming (s.dec.acc.extractLsb' 0 6 ++ dval x s.dec.prev) (s.dec.nslots + 1#4)) s))

/-- R172: `DEC_FLUSH` ends a frame in progress with `ERR_FRAMING` and leaves `dec_prev`; between frames it changes nothing. -/
def Obligations.DecFlushEndsOpenFrame : Prop :=
  ∀ s : State, s.dec.resValid = false →
    (s.dec.count ≠ 0#4 →
      exec .decFlush s =
        .next (afterFiring .decFlush none s.enc (afterFrameEnd s.dec.prev .errFraming s.dec.acc s.dec.nslots) s)) ∧
    (s.dec.count = 0#4 → exec .decFlush s = .next (afterFiring .decFlush none s.enc s.dec s))

/-- R173: `DEC_SET_PREV` loads `dec_prev`, abandons the frame with no result, and leaves the result registers. -/
def Obligations.DecSetPrevStartsFrame : Prop :=
  ∀ (s : State) (x : Symbol), s.config.symbolCode.wellFormed = true → s.dec.resValid = false →
    exec (.decSetPrev (code s.config.symbolCode x)) s =
      .next (afterFiring (.decSetPrev (code s.config.symbolCode x)) none s.enc
        { s.dec with prev := x, acc := 0x00#8, count := 0#4, nslots := 0#4 } s)

/-- R77, R78, R174: `DEC_RESULT` returns `{status, nslots, byte}` and clears `dec_res_valid`, and nothing else. -/
def Obligations.DecResultReturnsWord : Prop :=
  ∀ s : State, s.dec.resValid = true →
    exec .decResult s =
      .next (afterFiring .decResult
        (some (.resultWord
          ((match s.dec.resStatus with
            | .okMark1 => 0b00#2
            | .okMark2 => 0b01#2
            | .errChannelClosed => 0b10#2
            | .errFraming => 0b11#2) ++ s.dec.resNslots ++ s.dec.resByte)))
        s.enc { s.dec with resValid := false } s)

/-- R170, R209: whenever a result appears, a `DEC_SYM` or a `DEC_FLUSH` brought it, the frame registers are cleared, the parameters
and the encoder are as before, and `dec_prev` is the symbol that ended the frame (for a flush, the last one consumed). -/
def Obligations.FrameEndClearsFrame : Prop :=
  ∀ (i : Instr) (s t : State), exec i s = .next t → s.dec.resValid = false → t.dec.resValid = true →
    t.dec.acc = 0x00#8 ∧ t.dec.count = 0#4 ∧ t.dec.nslots = 0#4 ∧ t.enc = s.enc ∧ t.config = s.config ∧
    ((∃ x, i = .decSym x ∧ t.dec.prev = sym s.config.symbolCode x) ∨
      (i = .decFlush ∧ t.dec.prev = s.dec.prev ∧ s.dec.count ≠ 0#4))

/-- R202: exactly two causes give `ERR_FRAMING`: a `DEC_SYM` of a data symbol (or, with `IDLE_COUNTS = true`, of a repeat) that
brings the count to the budget, and a `DEC_FLUSH` in a frame. -/
def Obligations.FramingErrorCauses : Prop :=
  ∀ (i : Instr) (s t : State), s.config.wellFormed = true → exec i s = .next t → s.dec.resValid = false →
    (t.dec.resValid = true ∧ t.dec.resStatus = .errFraming ↔
      (∃ x, i = .decSym (code s.config.symbolCode x) ∧ s.dec.count.toNat + 1 = s.config.decBudget ∧
        (x = s.dec.prev ∧ s.config.idleCounts = true ∨ x ≠ s.dec.prev ∧ isData x = true)) ∨
      (i = .decFlush ∧ s.dec.count ≠ 0#4))

/-- R33, R208, R210: while a result waits, only `DEC_RESULT` and `RESET` change a register of the decoder, so no result is
overwritten, and `DEC_RESULT` changes `dec_res_valid` alone. -/
def Obligations.WaitingResultIsKept : Prop :=
  ∀ (i : Instr) (s t : State), s.dec.resValid = true → exec i s = .next t →
    (i = .decResult → t.dec = { s.dec with resValid := false }) ∧
    (i = .reset → t.dec = Decoder.reset) ∧
    (i ≠ .decResult → i ≠ .reset → t.dec = s.dec)

/-- R55: each data outcome shifts its value into the accumulator from the right, so four slots lie in it in the order of the
byte; fewer than four leave their values in the low bits, and more than four leave the last four. -/
def Obligations.AccumulatorKeepsLastFour : Prop :=
  (∀ (s : State) (x : Symbol), s.config.symbolCode.wellFormed = true → s.dec.resValid = false → isData x = true →
    x ≠ s.dec.prev →
    ∃ t, exec (.decSym (code s.config.symbolCode x)) s = .next t ∧
      (if s.dec.count.toNat + 1 = s.config.decBudget then t.dec.resByte else t.dec.acc) =
        shiftIn s.dec.acc (dval x s.dec.prev)) ∧
  (∀ (acc : Byte) (v : Value), shiftIn acc v = BitVec.ofNat 8 ((acc.toNat * 4 + v.toNat) % 256)) ∧
  (∀ a : Value, packValues [a] = 0b000000#6 ++ a) ∧
  (∀ a b : Value, packValues [a, b] = 0b0000#4 ++ a ++ b) ∧
  (∀ a b c : Value, packValues [a, b, c] = 0b00#2 ++ a ++ b ++ c) ∧
  (∀ (before : List Value) (a b c d : Value), packValues (before ++ [a, b, c, d]) = a ++ b ++ c ++ d)

/-- R178, R210: no result blocks the decoder. Once it is taken, the next `DEC_SYM` fires and is decoded against the symbol the
decoder consumed last; after `ERR_CHANNEL_CLOSED` that is `Closed`, so a data symbol decodes with offset 0. -/
def Obligations.DecodingResumesAfterResult : Prop :=
  ∀ (s : State) (x : Symbol), MachineInv s → s.dec.resValid = true → isData x = true → x ≠ s.dec.prev →
    2 ≤ s.config.decBudget →
    ∃ t u, exec .decResult s = .next t ∧ exec (.decSym (code s.config.symbolCode x)) t = .next u ∧
      u.dec.prev = x ∧ u.dec.resValid = false ∧ u.dec.nslots = 1#4 ∧
      u.dec.acc = 0b000000#6 ++ dval x s.dec.prev ∧
      (s.dec.prev = .closed → u.dec.acc = 0b000000#6 ++ BitVec.ofNat 2 (indexOf x % 4))

/-- R175: `decode_byte` correspondence. With no frame in progress and no result waiting, the symbols from the cursor on give
the result of `decode_byte`: its status, its slot count and its byte after exactly as many `DEC_SYM` as the cursor advances,
with no result before; and where the sequence ends first, `DEC_FLUSH` gives `ERR_FRAMING` whenever a transition was counted. -/
def Obligations.DecodeByteCorrespondence : Prop :=
  ∀ (s : State) (symbols : List Symbol), MachineInv s → s.dec.resValid = false → s.dec.count = 0#4 →
    match decodeByte s.config s.dec.prev symbols with
    | .ended st vs used =>
      (∀ n < used, ∃ t, runAll ((symbols.take n).map fun x => .decSym (code s.config.symbolCode x)) s = .next t ∧
        t.dec.resValid = false ∧ t.host.waiting = s.host.waiting) ∧
      ∃ t u, runAll ((symbols.take used).map fun x => .decSym (code s.config.symbolCode x)) s = .next t ∧
        t.dec.resValid = true ∧ exec .decResult t = .next u ∧
        lastReturned u = some (.resultWord (resultWord st (BitVec.ofNat 4 vs.length) (packValues vs)))
    | .unfinished counted vs =>
      ∃ t u, runAll (symbols.map fun x => .decSym (code s.config.symbolCode x)) s = .next t ∧
        t.dec.resValid = false ∧ exec .decFlush t = .next u ∧
        (counted = 0 → u.dec = t.dec) ∧
        (counted ≠ 0 → ∃ v, exec .decResult u = .next v ∧
          lastReturned v = some (.resultWord (resultWord .errFraming (BitVec.ofNat 4 vs.length) (packValues vs))))

/-- R176: loopback. From a link whose sides agree and are between frames, with a budget of at least 5, bytes whose symbols the
host carries in order, each once or more often, come back: result `j` is the OK status of the marker, 4 slots, byte `j`. With
`IDLE_COUNTS = true` every frame may see at most `DEC_BUDGET - 5` Idle observations. -/
def Obligations.LoopbackReturnsTheBytes : Prop :=
  ∀ (s : State) (frames : List (Byte × List Nat)), MachineInv s → linkReady s → 5 ≤ s.config.decBudget →
    (∀ f ∈ frames, f.2.length = 5) →
    (s.config.idleCounts = true → idlesFit s.config.decBudget 0 frames = true) →
    ∃ t, loopback frames s = .next t ∧
      resultWords t.host.trace =
        (frames.map fun f => resultWord (okStatus s.config.encMarker) 4#4 f.1).reverse ++ resultWords s.host.trace ∧
      t.host.waiting = s.host.waiting ∧
      t.enc.prev = t.dec.prev ∧ t.enc.busy = false ∧ t.dec.resValid = false

/-! ## Invariants and reset -/

/-- R38: every step keeps the invariants of R38, items 1 to 6, from every state that has them (and with them that no frame is in
progress while a result waits, R170 and R33). -/
def Obligations.StepKeepsInvariants : Prop :=
  ∀ s t : State, MachineInv s → step s = .next t → MachineInv t

/-- R38, R39: the reset state has them, with any parameters of R6 to R9 and any offers. -/
def Obligations.InvariantsAtReset : Prop :=
  ∀ (c : Config) (h : HostSide), c.wellFormed = true → MachineInv { State.reset with config := c, host := h }

/-- R39, R230, R231: `RESET` gives every register its reset value, in any state; what was in flight is lost with no result. -/
def Obligations.ResetRestoresRegisters : Prop :=
  ∀ s : State,
    exec .reset s =
      .next (afterFiring .reset none
        { prev := .closed, shift := 0x00#8, phase := 0#3, busy := false }
        { prev := .closed, acc := 0x00#8, count := 0#4, nslots := 0#4, resValid := false,
          resStatus := .okMark1, resNslots := 0#4, resByte := 0x00#8 } s)

/-- R6 to R9, R39: the registers after reset, and the default parameters. The offers, the trace and the draw count of
`State.reset` are the model's (log entries 1, 2, 4, 7) and are not stated. -/
def Obligations.ResetStateHoldsResetValues : Prop :=
  State.reset.enc = { prev := .closed, shift := 0x00#8, phase := 0#3, busy := false } ∧
  State.reset.dec =
    { prev := .closed, acc := 0x00#8, count := 0#4, nslots := 0#4, resValid := false,
      resStatus := .okMark1, resNslots := 0#4, resByte := 0x00#8 } ∧
  statusCode State.reset.dec.resStatus = 0b00#2 ∧
  State.reset.config.decBudget = 8 ∧ State.reset.config.encMarker = .mark1 ∧ State.reset.config.idleCounts = false ∧
  [Symbol.closed, .d0, .d1, .d2, .d3, .d4, .mark2, .mark1].map (code State.reset.config.symbolCode) =
    [0b000#3, 0b001#3, 0b010#3, 0b011#3, 0b100#3, 0b101#3, 0b110#3, 0b111#3]

/-! ## Ports -/

/-- R86, and R84, R88, R130: the readies and valids, as the host samples them; and the data ports under a high valid. The
symbol port shows the code that `ENC_SYM` returns; the result ports show the result registers, the status by its code of R77. -/
def Obligations.ReadyAndValidPorts : Prop :=
  ∀ (p : PortInputs) (s : State),
    (portOutputs p s).encInReady = (!p.rst && !s.enc.busy) ∧
    (portOutputs p s).encPrevReady = (!p.rst && !s.enc.busy) ∧
    (portOutputs p s).encOutValid = (!p.rst && s.enc.busy) ∧
    (portOutputs p s).decPrevReady = (!p.rst && !s.dec.resValid) ∧
    (portOutputs p s).decFlushReady = (!p.rst && !s.dec.resValid && !p.decPrevLoad) ∧
    (portOutputs p s).decInReady = (!p.rst && !s.dec.resValid && !p.decPrevLoad && !p.decFlush) ∧
    (portOutputs p s).decOutValid = (!p.rst && s.dec.resValid) ∧
    ((portOutputs p s).encOutValid = true →
      ∃ t, exec .encSym s = .next t ∧ lastReturned t = some (.symbolCode (portOutputs p s).encOutSym) ∧
        (portOutputs p s).encOutSym = code s.config.symbolCode t.enc.prev) ∧
    ((portOutputs p s).decOutValid = true →
      (portOutputs p s).decOutStatus =
        (match s.dec.resStatus with
        | .okMark1 => 0b00#2
        | .okMark2 => 0b01#2
        | .errChannelClosed => 0b10#2
        | .errFraming => 0b11#2) ∧
      (portOutputs p s).decOutNslots = s.dec.resNslots ∧
      (portOutputs p s).decOutByte = s.dec.resByte)

/-- R85: each probe port shows what the probe transaction of its inputs returns, whatever `rst` is; the status outputs show their
registers. -/
def Obligations.ProbePortsShowProbeResults : Prop :=
  ∀ (p : PortInputs) (s : State),
    (∃ t, exec (.romOffset p.romPrevIn) s = .next t ∧
      lastReturned t = some (.offsetWord (portOutputs p s).romOffsetOut)) ∧
    (∃ t, exec (.romEmit p.romVIn p.romPrevIn) s = .next t ∧
      lastReturned t = some (.symbolCode (portOutputs p s).romEmitOut)) ∧
    (∃ t, exec (.observe p.obsIncIn p.obsPrevIn) s = .next t ∧
      lastReturned t = some (.outcomeWord (portOutputs p s).obsOut)) ∧
    (∃ t, exec (.fmdClassify p.fmdSymIn) s = .next t ∧
      lastReturned t = some (.classWord (portOutputs p s).fmdClassOut)) ∧
    (portOutputs p s).encBusy = s.enc.busy ∧
    (portOutputs p s).encPrevQ = code s.config.symbolCode s.enc.prev ∧
    (portOutputs p s).decPrevQ = code s.config.symbolCode s.dec.prev ∧
    (portOutputs p s).decFrameActive = decide (s.dec.count ≠ 0#4)

/-- R87 item 1, R208: at an edge with `rst = 1` the registers take their reset values and no other transaction fires; the host's
sample of the outputs comes before. -/
def Obligations.ResetEdgeFiresResetAlone : Prop :=
  ∀ (p : PortInputs) (s : State), p.rst = true →
    ∃ t, clockEdge p s = .next t ∧ t.enc = Encoder.reset ∧ t.dec = Decoder.reset ∧ t.config = s.config ∧
      t.host.trace = .fired .reset none :: .sampled (portOutputs p s) :: s.host.trace ∧
      t.host.waiting = s.host.waiting ∧ t.host.program = s.host.program

/-- R87 item 2, R88, R238: the encoder at an edge with `rst = 0`. Busy, it hands out a symbol exactly when the host takes one, and
a channel state or a byte offered then is not accepted; the host gets the symbol that its port shows. Idle, it loads an offered
channel state and then accepts an offered byte, which is encoded against the loaded one; neither returns a value. The trace
tells what the host got: the sample before the edge, the encoder's transactions, then (`later`) the decoder's (log entries 4
and 12). -/
def Obligations.EncoderAtAnEdge : Prop :=
  ∀ (p : PortInputs) (s : State), p.rst = false →
    ∃ (t : State) (later : List Event), clockEdge p s = .next t ∧
      (∀ e ∈ later, ∃ i out, e = .fired i out ∧ isDecoderOp i = true) ∧
      (s.enc.busy = true →
        t.enc = (if p.encOutReady = true then handOutSymbol s.config s.enc else s.enc) ∧
        t.host.trace = later ++
          (if p.encOutReady = true then [.fired .encSym (some (.symbolCode (portOutputs p s).encOutSym))] else []) ++
          .sampled (portOutputs p s) :: s.host.trace) ∧
      (s.enc.busy = false →
        t.enc =
          { prev := if p.encPrevLoad = true then sym s.config.symbolCode p.encPrevIn else s.enc.prev
            shift := if p.encInValid = true then p.encInByte else s.enc.shift
            phase := if p.encInValid = true then 0#3 else s.enc.phase
            busy := p.encInValid } ∧
        t.host.trace = later ++
          (if p.encInValid = true then [.fired (.encByte p.encInByte) none] else []) ++
          (if p.encPrevLoad = true then [.fired (.encSetPrev p.encPrevIn) none] else []) ++
          .sampled (portOutputs p s) :: s.host.trace)

/-- R87 item 3, R88, R208, R239: the decoder at an edge with `rst = 0`. While a result waits it accepts no input, and the result
is taken exactly when the host takes it, which gets `{status, nslots, byte}` as the ports show them; otherwise one input at most
is accepted, by the priority `DEC_SET_PREV`, `DEC_FLUSH`, `DEC_SYM`, and none returns a value. The trace tells what the host got:
the sample before the edge, then (`earlier`) the encoder's transactions, then the decoder's (log entries 4 and 12). -/
def Obligations.DecoderAtAnEdge : Prop :=
  ∀ (p : PortInputs) (s : State), p.rst = false →
    ∃ (t : State) (earlier : List Event), clockEdge p s = .next t ∧ t.config = s.config ∧
      t.host.program = s.host.program ∧ t.host.waiting = s.host.waiting ∧
      (∀ e ∈ earlier, ∃ i out, e = .fired i out ∧ isEncoderOp i = true) ∧
      (s.dec.resValid = true →
        t.dec = (if p.decOutReady = true then { s.dec with resValid := false } else s.dec) ∧
        t.host.trace =
          (if p.decOutReady = true then
            [.fired .decResult (some (.resultWord
              ((portOutputs p s).decOutStatus ++ (portOutputs p s).decOutNslots ++ (portOutputs p s).decOutByte)))]
          else []) ++ earlier ++ .sampled (portOutputs p s) :: s.host.trace) ∧
      (s.dec.resValid = false →
        t.dec =
          (if p.decPrevLoad = true then
            { s.dec with prev := sym s.config.symbolCode p.decPrevIn, acc := 0x00#8, count := 0#4, nslots := 0#4 }
          else if p.decFlush = true then flushFrame s.dec
          else if p.decInValid = true then consumeSymbol s.config (sym s.config.symbolCode p.decInSym) s.dec
          else s.dec) ∧
        t.host.trace =
          (if p.decPrevLoad = true then [.fired (.decSetPrev p.decPrevIn) none]
          else if p.decFlush = true then [.fired .decFlush none]
          else if p.decInValid = true then [.fired (.decSym p.decInSym) none]
          else []) ++ earlier ++ .sampled (portOutputs p s) :: s.host.trace)

/-- R88, R240: the offered symbol stays until `ENC_SYM` takes it, and the offered result until `DEC_RESULT` takes it: no other
transaction but `RESET` changes what the ports show under a high valid. -/
def Obligations.OfferedOutputsStayUntilTaken : Prop :=
  ∀ (p : PortInputs) (i : Instr) (s t : State), exec i s = .next t → i ≠ .reset →
    (i ≠ .encSym → encOutValid p s = true →
      encOutValid p t = true ∧ (portOutputs p t).encOutSym = (portOutputs p s).encOutSym) ∧
    (i ≠ .decResult → decOutValid p s = true →
      decOutValid p t = true ∧ (portOutputs p t).decOutStatus = (portOutputs p s).decOutStatus ∧
      (portOutputs p t).decOutNslots = (portOutputs p s).decOutNslots ∧
      (portOutputs p t).decOutByte = (portOutputs p s).decOutByte)

/-- R242: after the edge at which a byte is accepted, the next cycle offers its first symbol, encoded against the channel state
that holds then. -/
def Obligations.FirstSymbolOfferedAfterByte : Prop :=
  ∀ (p q : PortInputs) (s : State), s.config.symbolCode.wellFormed = true → p.rst = false → q.rst = false →
    s.enc.busy = false → p.encInValid = true →
    ∃ t, clockEdge p s = .next t ∧ (portOutputs q t).encOutValid = true ∧
      (portOutputs q t).encOutSym = code s.config.symbolCode (emit (p.encInByte.extractLsb' 6 2) t.enc.prev)

/-! ## The end of a run, and the syntax -/

/-- R80, R243: in a quiescent state every input of the block is enabled and fires when it is offered. R80, R82: the two output
transactions are not enabled there and wait; that the wait is a next state with the offer held is the model's choice of log
entry 2. -/
def Obligations.QuiescentStateTakesInputs : Prop :=
  ∀ s : State, quiescent s = true →
    (∀ b, ∃ t, exec (.encByte b) s = .next t ∧ t.host.trace = .fired (.encByte b) none :: s.host.trace) ∧
    (∀ x, ∃ t, exec (.encSetPrev x) s = .next t ∧ t.host.trace = .fired (.encSetPrev x) none :: s.host.trace) ∧
    (∀ x, ∃ t, exec (.decSym x) s = .next t ∧ t.host.trace = .fired (.decSym x) none :: s.host.trace) ∧
    (∃ t, exec .decFlush s = .next t ∧ t.host.trace = .fired .decFlush none :: s.host.trace) ∧
    (∀ x, ∃ t, exec (.decSetPrev x) s = .next t ∧ t.host.trace = .fired (.decSetPrev x) none :: s.host.trace) ∧
    exec .encSym s = .next (afterWaiting .encSym s) ∧
    exec .decResult s = .next (afterWaiting .decResult s)

/-- R90: the words of each pseudo-instruction are those of its expansion, under every `SYMBOL_CODE`; and the words of the single
lines it expands to, and of every other transaction's line, are those of the table of R89. -/
def Obligations.PseudoInstructionWords : Prop :=
  ∀ (c : SymbolCode) (b : Byte) (v : Value) (x y : SymOperand) (bs : List Byte) (ss : List SymOperand),
    lineWords c (.encFrame b) = lineWords c (.encByte b) ++ (List.replicate 5 (lineWords c .encSym)).flatten ∧
    lineWords c (.encString bs) = bs.flatMap (fun b => lineWords c (.encFrame b)) ∧
    lineWords c (.decStream ss) = ss.flatMap (fun x => lineWords c (.decSym x)) ∧
    lineWords c (.decFrame ss) = lineWords c (.decStream ss) ++ lineWords c .decResult ∧
    (∀ a : Symbol, operandCode c (.name a) = code c a) ∧ (∀ k : Code, operandCode c (.literal k) = k) ∧
    lineWords c (.encByte b) = [0x1000#16 ||| b.zeroExtend 16] ∧
    lineWords c .encSym = [0x2000#16] ∧
    lineWords c (.encSetPrev x) = [0x3000#16 ||| (operandCode c x).zeroExtend 16] ∧
    lineWords c (.decSym x) = [0x4000#16 ||| (operandCode c x).zeroExtend 16] ∧
    lineWords c .decFlush = [0x5000#16] ∧
    lineWords c (.decSetPrev x) = [0x6000#16 ||| (operandCode c x).zeroExtend 16] ∧
    lineWords c .decResult = [0x7000#16] ∧
    lineWords c (.romOffset x) = [0x8000#16 ||| (operandCode c x).zeroExtend 16] ∧
    lineWords c (.romEmit v x) = [0x9000#16 ||| v.zeroExtend 16 <<< 4 ||| (operandCode c x).zeroExtend 16] ∧
    lineWords c (.obs x y) =
      [0xA000#16 ||| (operandCode c x).zeroExtend 16 <<< 4 ||| (operandCode c y).zeroExtend 16] ∧
    lineWords c (.fmdClass x) = [0xB000#16 ||| (operandCode c x).zeroExtend 16] ∧
    lineWords c .reset = [0xF000#16]
end

