-- ==== Sys2Proof/Laws/Operands.lean ====
section
/-! SUPPORT. Symbols and their codes under a well-formed `SYMBOL_CODE` (R9): `sym` and `code` are inverse to each other, so the
ROM reads are the functions they realise. -/

namespace Sys2Proof.Machine

/-- Every list of eight different 3-bit codes holds every code. -/
theorem mem_of_eight_codes (l : List Code) (hd : l.Nodup) (hl : l.length = 8) (k : Code) : k ∈ l := by
  have hcard : (l.map BitVec.toFin).toFinset = Finset.univ := by
    apply Finset.eq_univ_of_card
    rw [List.toFinset_card_of_nodup (hd.map fun a b h => BitVec.eq_of_toFin_eq h)]
    simp [hl]
  have hk : k.toFin ∈ (l.map BitVec.toFin).toFinset := by rw [hcard]; exact Finset.mem_univ _
  obtain ⟨x, hx, he⟩ := List.mem_map.mp (List.mem_toFinset.mp hk)
  exact BitVec.eq_of_toFin_eq he ▸ hx

/-- The eight codes are pairwise different. -/
theorem codes_differ {c : SymbolCode} (h : c.wellFormed = true) :
    [0b000#3, c.d0, c.d1, c.d2, c.d3, c.d4, c.mark1, c.mark2].Nodup := of_decide_eq_true h

theorem sym_code {c : SymbolCode} (h : c.wellFormed = true) (x : Symbol) : sym c (code c x) = x := by
  have hd := codes_differ h
  simp only [List.nodup_cons, List.mem_cons, List.not_mem_nil, or_false, not_or] at hd
  cases x with
  | closed => simp [sym, code]
  | d0 => simp_all [sym, code, eq_comm (a := c.d0)]
  | d1 => simp_all [sym, code, eq_comm (a := c.d1)]
  | d2 => simp_all [sym, code, eq_comm (a := c.d2)]
  | d3 => simp_all [sym, code, eq_comm (a := c.d3)]
  | d4 => simp_all [sym, code, eq_comm (a := c.d4)]
  | mark1 => simp_all [sym, code, eq_comm (a := c.mark1)]
  | mark2 => simp_all [sym, code, eq_comm (a := c.mark2)]

theorem code_sym {c : SymbolCode} (h : c.wellFormed = true) (k : Code) : code c (sym c k) = k := by
  have hk := mem_of_eight_codes _ (codes_differ h) rfl k
  simp only [List.mem_cons, List.not_mem_nil, or_false] at hk
  rcases hk with rfl | rfl | rfl | rfl | rfl | rfl | rfl | rfl
  · exact congrArg (code c) (sym_code h .closed)
  · exact congrArg (code c) (sym_code h .d0)
  · exact congrArg (code c) (sym_code h .d1)
  · exact congrArg (code c) (sym_code h .d2)
  · exact congrArg (code c) (sym_code h .d3)
  · exact congrArg (code c) (sym_code h .d4)
  · exact congrArg (code c) (sym_code h .mark1)
  · exact congrArg (code c) (sym_code h .mark2)

theorem code_injective {c : SymbolCode} (h : c.wellFormed = true) {x y : Symbol} (e : code c x = code c y) : x = y := by
  rw [← sym_code h x, e, sym_code h y]

theorem append_low_two (p : Code) (v : Value) : (p ++ v).extractLsb' 0 2 = v := by
  revert p v; decide

theorem append_high_three (p : Code) (v : Value) : (p ++ v).extractLsb' 2 3 = p := by
  revert p v; decide

theorem pair_low_three (i p : Code) : (i ++ p).extractLsb' 0 3 = p := by
  revert i p; decide

theorem pair_high_three (i p : Code) : (i ++ p).extractLsb' 3 3 = i := by
  revert i p; decide

/-- The `EMIT` table at `{code(p), v}` holds `code(emit(v, p))` (R117). -/
theorem romReadEmit_eq {c : SymbolCode} (h : c.wellFormed = true) (v : Value) (p : Symbol) :
    romReadEmit c (code c p ++ v) = code c (emit v p) := by
  rw [romReadEmit, append_low_two, append_high_three, sym_code h]

/-- The `DVAL` table at `{code(i), code(p)}` holds `dval(i, p)` (R118). -/
theorem romReadDval_eq {c : SymbolCode} (h : c.wellFormed = true) (i p : Symbol) :
    romReadDval c (code c i ++ code c p) = dval i p := by
  rw [romReadDval, pair_high_three, pair_low_three, sym_code h, sym_code h]

/-- The `OFFSET` table at `code(p)` holds `offset(p)` (R116). -/
theorem romReadOffset_eq {c : SymbolCode} (h : c.wellFormed = true) (p : Symbol) :
    romReadOffset c (code c p) = offsetWord (offset p) := by
  rw [romReadOffset, sym_code h]

end Sys2Proof.Machine
end

