-- ==== Sys2Proof/Laws/State.lean ====
section
/-! SUPPORT. What each update of the state leaves in each part of it: one lemma per part and update, true by definition. -/

namespace Sys2Proof.Machine

variable (f : Encoder → Encoder) (g : Decoder → Decoder) (e : Event) (i : Instr) (rest : List HostInput) (s : State)

@[simp] theorem State.mapEnc_config : (s.mapEnc f).config = s.config := rfl
@[simp] theorem State.mapEnc_enc : (s.mapEnc f).enc = f s.enc := rfl
@[simp] theorem State.mapEnc_dec : (s.mapEnc f).dec = s.dec := rfl
@[simp] theorem State.mapEnc_host : (s.mapEnc f).host = s.host := rfl

@[simp] theorem State.mapDec_config : (s.mapDec g).config = s.config := rfl
@[simp] theorem State.mapDec_enc : (s.mapDec g).enc = s.enc := rfl
@[simp] theorem State.mapDec_dec : (s.mapDec g).dec = g s.dec := rfl
@[simp] theorem State.mapDec_host : (s.mapDec g).host = s.host := rfl

@[simp] theorem State.log_config : (s.log e).config = s.config := rfl
@[simp] theorem State.log_enc : (s.log e).enc = s.enc := rfl
@[simp] theorem State.log_dec : (s.log e).dec = s.dec := rfl
@[simp] theorem State.log_program : (s.log e).host.program = s.host.program := rfl
@[simp] theorem State.log_waiting : (s.log e).host.waiting = s.host.waiting := rfl
@[simp] theorem State.log_trace : (s.log e).host.trace = e :: s.host.trace := rfl
@[simp] theorem State.log_draws : (s.log e).host.draws = s.host.draws := rfl

@[simp] theorem State.hold_config : (s.hold i).config = s.config := rfl
@[simp] theorem State.hold_enc : (s.hold i).enc = s.enc := rfl
@[simp] theorem State.hold_dec : (s.hold i).dec = s.dec := rfl
@[simp] theorem State.hold_program : (s.hold i).host.program = s.host.program := rfl
@[simp] theorem State.hold_waiting : (s.hold i).host.waiting = s.host.waiting ++ [i] := rfl
@[simp] theorem State.hold_trace : (s.hold i).host.trace = s.host.trace := rfl
@[simp] theorem State.hold_draws : (s.hold i).host.draws = s.host.draws := rfl

@[simp] theorem State.release_config : (s.release i).config = s.config := rfl
@[simp] theorem State.release_enc : (s.release i).enc = s.enc := rfl
@[simp] theorem State.release_dec : (s.release i).dec = s.dec := rfl
@[simp] theorem State.release_program : (s.release i).host.program = s.host.program := rfl
@[simp] theorem State.release_waiting : (s.release i).host.waiting = s.host.waiting.erase i := rfl
@[simp] theorem State.release_trace : (s.release i).host.trace = s.host.trace := rfl
@[simp] theorem State.release_draws : (s.release i).host.draws = s.host.draws := rfl

@[simp] theorem State.offer_config : (s.offer rest).config = s.config := rfl
@[simp] theorem State.offer_enc : (s.offer rest).enc = s.enc := rfl
@[simp] theorem State.offer_dec : (s.offer rest).dec = s.dec := rfl
@[simp] theorem State.offer_program : (s.offer rest).host.program = rest := rfl
@[simp] theorem State.offer_waiting : (s.offer rest).host.waiting = s.host.waiting := rfl
@[simp] theorem State.offer_trace : (s.offer rest).host.trace = s.host.trace := rfl
@[simp] theorem State.offer_draws : (s.offer rest).host.draws = s.host.draws := rfl

@[simp] theorem sampleOutputs_config (p : PortInputs) : (sampleOutputs p s).config = s.config := rfl
@[simp] theorem sampleOutputs_enc (p : PortInputs) : (sampleOutputs p s).enc = s.enc := rfl
@[simp] theorem sampleOutputs_dec (p : PortInputs) : (sampleOutputs p s).dec = s.dec := rfl
@[simp] theorem sampleOutputs_program (p : PortInputs) : (sampleOutputs p s).host.program = s.host.program := rfl
@[simp] theorem sampleOutputs_waiting (p : PortInputs) : (sampleOutputs p s).host.waiting = s.host.waiting := rfl
@[simp] theorem sampleOutputs_trace (p : PortInputs) :
    (sampleOutputs p s).host.trace = .sampled (portOutputs p s) :: s.host.trace := rfl
@[simp] theorem sampleOutputs_draws (p : PortInputs) : (sampleOutputs p s).host.draws = s.host.draws + 1 := rfl

@[simp] theorem resetRegisters_config : (resetRegisters s).config = s.config := rfl
@[simp] theorem resetRegisters_enc : (resetRegisters s).enc = Encoder.reset := rfl
@[simp] theorem resetRegisters_dec : (resetRegisters s).dec = Decoder.reset := rfl
@[simp] theorem resetRegisters_host : (resetRegisters s).host = s.host := rfl

variable (d : Decoder) (st : Status) (a : Byte) (n : BitVec 4)

@[simp] theorem clearFrame_prev : (clearFrame d).prev = d.prev := rfl
@[simp] theorem clearFrame_acc : (clearFrame d).acc = 0x00#8 := rfl
@[simp] theorem clearFrame_count : (clearFrame d).count = 0#4 := rfl
@[simp] theorem clearFrame_nslots : (clearFrame d).nslots = 0#4 := rfl
@[simp] theorem clearFrame_resValid : (clearFrame d).resValid = d.resValid := rfl
@[simp] theorem clearFrame_resStatus : (clearFrame d).resStatus = d.resStatus := rfl
@[simp] theorem clearFrame_resNslots : (clearFrame d).resNslots = d.resNslots := rfl
@[simp] theorem clearFrame_resByte : (clearFrame d).resByte = d.resByte := rfl

@[simp] theorem finish_prev : (finish st a n d).prev = d.prev := rfl
@[simp] theorem finish_acc : (finish st a n d).acc = 0x00#8 := rfl
@[simp] theorem finish_count : (finish st a n d).count = 0#4 := rfl
@[simp] theorem finish_nslots : (finish st a n d).nslots = 0#4 := rfl
@[simp] theorem finish_resValid : (finish st a n d).resValid = true := rfl
@[simp] theorem finish_resStatus : (finish st a n d).resStatus = st := rfl
@[simp] theorem finish_resNslots : (finish st a n d).resNslots = n := rfl
@[simp] theorem finish_resByte : (finish st a n d).resByte = a := rfl

end Sys2Proof.Machine
end

