-- ==== Sys2Proof/Laws/Ops.lean ====
section
/-! SUPPORT. What the shared operations can do, said once: a transaction fires or waits, and never stops; a step takes up a
held offer, the next offer, or nothing. -/

namespace Sys2Proof.Machine

variable {i : Instr} {out : State → Option HostValue} {effect : State → State} {s t : State}

theorem perform_enabled (h : enabled i s = true) :
    perform i out effect s = .next ((effect s).log (.fired i (out s))) := by
  simp [perform, h]

theorem perform_waits (h : enabled i s = false) : perform i out effect s = .next (s.hold i) := by
  simp [perform, h]

/-- All a transaction can do: fire with its effect, or wait. -/
theorem perform_next (h : perform i out effect s = .next t) :
    (enabled i s = true ∧ t = (effect s).log (.fired i (out s))) ∨ (enabled i s = false ∧ t = s.hold i) := by
  cases he : enabled i s with
  | true => rw [perform_enabled he] at h; exact .inl ⟨rfl, (Host.Outcome.next.inj h).symm⟩
  | false => rw [perform_waits he] at h; exact .inr ⟨rfl, (Host.Outcome.next.inj h).symm⟩

/-- The value each transaction returns (R80, column "returns"). -/
def returnOf : Instr → State → Option HostValue
  | .encByte _, _ => none
  | .encSym, s => some (.symbolCode (code s.config.symbolCode (encNext s.config s.enc)))
  | .encSetPrev _, _ => none
  | .decSym _, _ => none
  | .decFlush, _ => none
  | .decSetPrev _, _ => none
  | .decResult, s => some (.resultWord (resultWord s.dec.resStatus s.dec.resNslots s.dec.resByte))
  | .romOffset p, s => some (.offsetWord (romReadOffset s.config.symbolCode p))
  | .romEmit v p, s => some (.symbolCode (romReadEmit s.config.symbolCode (p ++ v)))
  | .observe i p, s =>
    some (.outcomeWord (outcomeWord
      (observeTransition s.config.symbolCode (sym s.config.symbolCode i) (sym s.config.symbolCode p))))
  | .fmdClassify x, s => some (.classWord (classWord (classify (sym s.config.symbolCode x))))
  | .reset, _ => none

/-- The effect of each transaction on the encoder's registers. -/
def encEffect : Instr → State → Encoder
  | .encByte b, s => acceptByte b s.enc
  | .encSym, s => handOutSymbol s.config s.enc
  | .encSetPrev x, s => loadEncPrev (sym s.config.symbolCode x) s.enc
  | .decSym _, s => s.enc
  | .decFlush, s => s.enc
  | .decSetPrev _, s => s.enc
  | .decResult, s => s.enc
  | .romOffset _, s => s.enc
  | .romEmit _ _, s => s.enc
  | .observe _ _, s => s.enc
  | .fmdClassify _, s => s.enc
  | .reset, _ => Encoder.reset

/-- The effect of each transaction on the decoder's registers. -/
def decEffect : Instr → State → Decoder
  | .encByte _, s => s.dec
  | .encSym, s => s.dec
  | .encSetPrev _, s => s.dec
  | .decSym x, s => consumeSymbol s.config (sym s.config.symbolCode x) s.dec
  | .decFlush, s => flushFrame s.dec
  | .decSetPrev x, s => loadDecPrev (sym s.config.symbolCode x) s.dec
  | .decResult, s => releaseResult s.dec
  | .romOffset _, s => s.dec
  | .romEmit _ _, s => s.dec
  | .observe _ _, s => s.dec
  | .fmdClassify _, s => s.dec
  | .reset, _ => Decoder.reset

/-- The state after a transaction fired: only its own agent's registers and the trace change. -/
def firedState (i : Instr) (s : State) : State :=
  { s with
    enc := encEffect i s
    dec := decEffect i s
    host := { s.host with trace := .fired i (returnOf i s) :: s.host.trace } }

/-- Each transaction is one `perform`. -/
theorem exec_eq_perform (i : Instr) (s : State) :
    exec i s = perform i (returnOf i) (fun s => { s with enc := encEffect i s, dec := decEffect i s }) s := by
  cases i <;> rfl

/-- An enabled transaction fires. -/
theorem exec_enabled (h : enabled i s = true) : exec i s = .next (firedState i s) := by
  rw [exec_eq_perform, perform_enabled h]; rfl

/-- A transaction that is not enabled waits (R82). -/
theorem exec_waits (h : enabled i s = false) : exec i s = .next (s.hold i) := by
  rw [exec_eq_perform, perform_waits h]

/-- All a transaction can do. -/
theorem exec_next (h : exec i s = .next t) :
    (enabled i s = true ∧ t = firedState i s) ∨ (enabled i s = false ∧ t = s.hold i) := by
  cases he : enabled i s with
  | true => rw [exec_enabled he] at h; exact .inl ⟨rfl, (Host.Outcome.next.inj h).symm⟩
  | false => rw [exec_waits he] at h; exact .inr ⟨rfl, (Host.Outcome.next.inj h).symm⟩

/-- A chain goes on exactly when both links do. -/
theorem andThen_next {o : Host.Outcome State Fault Refusal} {f : State → Host.Outcome State Fault Refusal}
    (h : andThen o f = .next t) : ∃ u, o = .next u ∧ f u = .next t := by
  cases o with
  | next u => exact ⟨u, rfl, h⟩
  | fault r => cases r
  | refused r => cases h

@[simp] theorem andThen_of_next (u : State) (f : State → Host.Outcome State Fault Refusal) :
    andThen (.next u) f = f u := rfl

/-- All a handshake can do at an edge. -/
theorem fireIf_next {b : Bool} (h : fireIf b i s = .next t) :
    (b = true ∧ exec i s = .next t) ∨ (b = false ∧ t = s) := by
  cases b with
  | true => exact .inl ⟨rfl, h⟩
  | false => exact .inr ⟨rfl, (Host.Outcome.next.inj h).symm⟩

end Sys2Proof.Machine
end

