-- ==== Sys2Proof/Laws/Decoder.lean ====
section
/-! SUPPORT. All the decoder's register writes can do (R151, R171, R172), under a well-formed `SYMBOL_CODE`. -/

namespace Sys2Proof.Machine

variable {c : SymbolCode} {x p : Symbol} {budget : Nat} {a : Byte} {n : BitVec 4} {d : Decoder}

/-- A data symbol different from the previous one gives `Data(dval)` (R151, step 5). -/
theorem observeTransition_data (h : c.wellFormed = true) (hd : isData x = true) (hn : x ≠ p) :
    observeTransition c x p = .data (dval x p) := by
  cases x <;> simp_all [isData, observeTransition, ← romReadDval_eq h]

/-- Below the budget the frame goes on (R171). -/
theorem countTransition_below (h : d.count.toNat + 1 ≠ budget) :
    countTransition budget a n d = { d with acc := a, nslots := n, count := d.count + 1#4 } := by
  rw [countTransition, if_neg h]

/-- At the budget the frame ends with `ERR_FRAMING` (R171, R202). -/
theorem countTransition_at (h : d.count.toNat + 1 = budget) :
    countTransition budget a n d = finish .errFraming a n d := by
  rw [countTransition, if_pos h]

/-- An accepted symbol leaves the result registers alone or ends the frame (R171), and is the new `dec_prev`. -/
theorem consumeSymbol_next (c : Config) (x : Symbol) (d : Decoder) :
    (consumeSymbol c x d).prev = x ∧
      (((consumeSymbol c x d).resValid = d.resValid ∧ (consumeSymbol c x d).resStatus = d.resStatus ∧
          (consumeSymbol c x d).resNslots = d.resNslots ∧ (consumeSymbol c x d).resByte = d.resByte) ∨
        ∃ st a n, consumeSymbol c x d = finish st a n { d with prev := x }) := by
  have hct : ∀ a n, (countTransition c.decBudget a n { d with prev := x }).prev = x ∧
      (((countTransition c.decBudget a n { d with prev := x }).resValid = d.resValid ∧
          (countTransition c.decBudget a n { d with prev := x }).resStatus = d.resStatus ∧
          (countTransition c.decBudget a n { d with prev := x }).resNslots = d.resNslots ∧
          (countTransition c.decBudget a n { d with prev := x }).resByte = d.resByte) ∨
        ∃ st a' n', countTransition c.decBudget a n { d with prev := x } = finish st a' n' { d with prev := x }) := by
    intro a n
    unfold countTransition
    split
    · exact ⟨rfl, .inr ⟨_, _, _, rfl⟩⟩
    · exact ⟨rfl, .inl ⟨rfl, rfl, rfl, rfl⟩⟩
  unfold consumeSymbol actOn
  split
  · split
    · exact hct _ _
    · exact ⟨rfl, .inl ⟨rfl, rfl, rfl, rfl⟩⟩
  · exact ⟨rfl, .inr ⟨_, _, _, rfl⟩⟩
  · exact ⟨rfl, .inr ⟨_, _, _, rfl⟩⟩
  · exact ⟨rfl, .inr ⟨_, _, _, rfl⟩⟩
  · exact hct _ _

/-- A flush ends an open frame with `ERR_FRAMING` (R172). -/
theorem flushFrame_open (h : d.count ≠ 0#4) : flushFrame d = finish .errFraming d.acc d.nslots d := by
  simp [flushFrame, frameActive, h]

/-- Between frames a flush changes nothing (R172). -/
theorem flushFrame_between (h : d.count = 0#4) : flushFrame d = d := by
  simp [flushFrame, frameActive, h]

end Sys2Proof.Machine
end

