-- ==== Sys2Proof/Laws/Encoder.lean ====
section
/-! SUPPORT. All the encoder's register writes can do (R130 to R133), under a well-formed `SYMBOL_CODE`. -/

namespace Sys2Proof.Machine

variable {c : Config} {e : Encoder}

/-- In the phases 0 to 3 the next symbol is `emit(enc_shift[7:6], enc_prev)` (R130). -/
theorem encNext_data (h : c.symbolCode.wellFormed = true) (hp : e.phase < 4#3) :
    encNext c e = emit (topChunk e.shift) e.prev := by
  rw [encNext, if_pos hp, romReadEmit_eq h, sym_code h]

/-- In phase 4 the next symbol is the marker (R130). -/
theorem encNext_marker (hp : ¬e.phase < 4#3) : encNext c e = markerSymbol c.encMarker := by
  rw [encNext, if_neg hp]

/-- Handing out a data symbol (R132). -/
theorem handOutSymbol_data (h : c.symbolCode.wellFormed = true) (hp : e.phase < 4#3) :
    handOutSymbol c e =
      { e with prev := emit (topChunk e.shift) e.prev, shift := e.shift <<< 2, phase := e.phase + 1#3 } := by
  simp only [handOutSymbol, if_pos hp, encNext_data h hp]

/-- Handing out the marker (R132). -/
theorem handOutSymbol_marker (hp : ¬e.phase < 4#3) :
    handOutSymbol c e = { e with prev := markerSymbol c.encMarker, phase := 0#3, busy := false } := by
  simp only [handOutSymbol, if_neg hp, encNext_marker hp]

end Sys2Proof.Machine
end

