-- ==== Sys2Proof/Laws/PerInstr.lean ====
section
/-! SUPPORT. Statements made per instruction. Family `OwnRow`: the word of a transaction is admitted by the rows of
spec/opcode_table.json that carry its mnemonic, and by no other row. -/

namespace Sys2Proof.Laws.OwnRow

open Sys2Proof

/-- The rows of the opcode table that admit the word of `i` are exactly the one row of its own mnemonic. -/
def Statement (i : Instr) : Prop :=
  (opcodeTable.filter fun r => r.admits (encode i)).map OpcodeRow.mnemonic = [i.mnemonic]

theorem encByte (b : Byte) : Statement (.encByte b) := by
  revert b; unfold Statement; decide

theorem encSym : Statement .encSym := by
  unfold Statement; decide

theorem encSetPrev (s : Code) : Statement (.encSetPrev s) := by
  revert s; unfold Statement; decide

theorem decSym (s : Code) : Statement (.decSym s) := by
  revert s; unfold Statement; decide

theorem decFlush : Statement .decFlush := by
  unfold Statement; decide

theorem decSetPrev (s : Code) : Statement (.decSetPrev s) := by
  revert s; unfold Statement; decide

theorem decResult : Statement .decResult := by
  unfold Statement; decide

theorem romOffset (p : Code) : Statement (.romOffset p) := by
  revert p; unfold Statement; decide

theorem romEmit (v : Value) (p : Code) : Statement (.romEmit v p) := by
  revert v p; unfold Statement; decide

theorem observe (i p : Code) : Statement (.observe i p) := by
  revert i p; unfold Statement; decide

theorem fmdClassify (s : Code) : Statement (.fmdClassify s) := by
  revert s; unfold Statement; decide

theorem reset : Statement .reset := by
  unfold Statement; decide

end Sys2Proof.Laws.OwnRow
end

