-- ==== Sys2Proof/Laws/Ports.lean ====
section
/-! SUPPORT. All an agent can do at an edge with `rst = 0` (R87): the transactions that fire, by the state just before the edge. -/

namespace Sys2Proof.Machine

variable {p : PortInputs} {s0 s : State}

/-- A busy encoder hands out its symbol or does nothing (R87, item 2). -/
theorem encoderEdge_busy (hr : p.rst = false) (h0 : s0.enc.busy = true) (h : s.enc.busy = true) :
    encoderEdge p s0 s = .next (if p.encOutReady = true then firedState .encSym s else s) := by
  have hx : encOutFire p s0 = p.encOutReady := by simp [encOutFire, encOutValid, h0, hr]
  have hq : encPrevFire p s0 = false := by simp [encPrevFire, encPrevReady, h0, hr]
  have hf : encInFire p s0 = false := by simp [encInFire, encInReady, h0, hr]
  unfold encoderEdge
  rw [hx, hq, hf]
  cases p.encOutReady with
  | false => rfl
  | true => exact exec_enabled (i := .encSym) h

/-- An idle encoder loads a channel state and then accepts a byte, each if it is offered (R87, item 2). -/
theorem encoderEdge_idle (hr : p.rst = false) (h0 : s0.enc.busy = false) (h : s.enc.busy = false) :
    encoderEdge p s0 s = .next
      (let u := if p.encPrevLoad = true then firedState (.encSetPrev p.encPrevIn) s else s
       if p.encInValid = true then firedState (.encByte p.encInByte) u else u) := by
  have hx : encOutFire p s0 = false := by simp [encOutFire, encOutValid, h0]
  have hq : encPrevFire p s0 = p.encPrevLoad := by simp [encPrevFire, encPrevReady, h0, hr]
  have hf : encInFire p s0 = p.encInValid := by simp [encInFire, encInReady, h0, hr]
  have hload : ∀ x, exec (.encSetPrev x) s = .next (firedState (.encSetPrev x) s) := fun x =>
    exec_enabled (by simp [enabled, encIdle, h])
  have hbyte : ∀ b u, u.enc.busy = false → exec (.encByte b) u = .next (firedState (.encByte b) u) := fun b u hu =>
    exec_enabled (by simp [enabled, encIdle, hu])
  unfold encoderEdge
  rw [hx, hq, hf]
  cases p.encPrevLoad <;> cases p.encInValid
  · rfl
  · simp [fireIf, hbyte _ _ h]
  · simp [fireIf, hload]
  · have hu : (firedState (.encSetPrev p.encPrevIn) s).enc.busy = false := h
    simp [fireIf, hload, hbyte _ _ hu]

/-- While a result waits the decoder gives it up or does nothing (R87, item 3). -/
theorem decoderEdge_waiting (hr : p.rst = false) (h0 : s0.dec.resValid = true) (h : s.dec.resValid = true) :
    decoderEdge p s0 s = .next (if p.decOutReady = true then firedState .decResult s else s) := by
  have hx : decOutFire p s0 = p.decOutReady := by simp [decOutFire, decOutValid, h0, hr]
  have hq : decPrevFire p s0 = false := by simp [decPrevFire, decPrevReady, h0, hr]
  have hf : decFlushFire p s0 = false := by simp [decFlushFire, decFlushReady, h0, hr]
  have hi : decInFire p s0 = false := by simp [decInFire, decInReady, h0, hr]
  unfold decoderEdge
  rw [hx, hq, hf, hi]
  cases p.decOutReady with
  | false => rfl
  | true => exact exec_enabled (i := .decResult) h

/-- With no result waiting the decoder takes one input at most, by its priority (R87, item 3; R208). -/
theorem decoderEdge_open (hr : p.rst = false) (h0 : s0.dec.resValid = false) (h : s.dec.resValid = false) :
    decoderEdge p s0 s = .next
      (if p.decPrevLoad = true then firedState (.decSetPrev p.decPrevIn) s
      else if p.decFlush = true then firedState .decFlush s
      else if p.decInValid = true then firedState (.decSym p.decInSym) s
      else s) := by
  have hx : decOutFire p s0 = false := by simp [decOutFire, decOutValid, h0]
  have hq : decPrevFire p s0 = p.decPrevLoad := by simp [decPrevFire, decPrevReady, h0, hr]
  have hf : decFlushFire p s0 = (p.decFlush && !p.decPrevLoad) := by simp [decFlushFire, decFlushReady, h0, hr]
  have hi : decInFire p s0 = (p.decInValid && !p.decPrevLoad && !p.decFlush) := by
    simp [decInFire, decInReady, h0, hr, Bool.and_assoc]
  have hload : ∀ x, exec (.decSetPrev x) s = .next (firedState (.decSetPrev x) s) := fun x =>
    exec_enabled (by simp [enabled, decOpen, h])
  have hflush : exec .decFlush s = .next (firedState .decFlush s) := exec_enabled (by simp [enabled, decOpen, h])
  have hsym : ∀ x, exec (.decSym x) s = .next (firedState (.decSym x) s) := fun x =>
    exec_enabled (by simp [enabled, decOpen, h])
  unfold decoderEdge
  rw [hx, hq, hf, hi]
  cases p.decPrevLoad <;> cases p.decFlush <;> cases p.decInValid <;> simp [fireIf, hload, hflush, hsym]

end Sys2Proof.Machine
end

