-- ==== Sys2Proof/Laws/Step.lean ====
section
/-! SUPPORT. One step by what is taken up, and the package of an invariant: if every transaction and every sample of the output
ports keeps it, every step keeps it. -/

namespace Sys2Proof.Machine

variable {s t : State}

/-- A held offer that is taken up is enabled and is among those held. -/
theorem firstEnabled_some {i : Instr} : ∀ {l : List Instr}, firstEnabled s l = some i → enabled i s = true ∧ i ∈ l
  | [], h => by simp [firstEnabled] at h
  | j :: rest, h => by
    unfold firstEnabled at h
    split at h
    · split at h
      · next he => cases h; exact ⟨he, List.mem_cons_self⟩
      · cases h
    · next k hk =>
      split at h
      · next he => cases h; exact ⟨(Bool.and_eq_true_iff.mp he).1, List.mem_cons_self⟩
      · cases h
        obtain ⟨h1, h2⟩ := firstEnabled_some hk
        exact ⟨h1, List.mem_cons_of_mem _ h2⟩

/-- No held offer is enabled when none is taken up. -/
theorem firstEnabled_none : ∀ {l : List Instr}, firstEnabled s l = none → ∀ i ∈ l, enabled i s = false
  | [], _, i, hi => by cases hi
  | j :: rest, h, i, hi => by
    unfold firstEnabled at h
    split at h
    · next hr =>
      split at h
      · cases h
      · next he =>
        cases hi with
        | head => simpa using he
        | tail _ hi => exact firstEnabled_none hr i hi
    · split at h <;> cases h

/-- The held offer that is taken up comes first in the order of one edge, the oldest of its rank, and leaves the held offers. -/
theorem firstEnabled_split {j : Instr} : ∀ {l : List Instr}, firstEnabled s l = some j →
    ∃ older newer, l = older ++ j :: newer ∧ l.erase j = older ++ newer ∧
      (∀ k ∈ older, enabled k s = true → portRank j < portRank k) ∧
      (∀ k ∈ newer, enabled k s = true → portRank j ≤ portRank k)
  | [], h => by simp [firstEnabled] at h
  | i :: rest, h => by
    unfold firstEnabled at h
    cases hr : firstEnabled s rest with
    | none =>
      rw [hr] at h
      simp only at h
      split at h
      · obtain rfl := Option.some.inj h
        exact ⟨[], rest, rfl, by simp, by simp, fun k hk he => by simp [firstEnabled_none hr k hk] at he⟩
      · cases h
    | some m =>
      rw [hr] at h
      obtain ⟨older, newer, rfl, herase, hold, hnew⟩ := firstEnabled_split hr
      simp only at h
      split at h
      · next hc =>
        obtain rfl := Option.some.inj h
        have hle : portRank i ≤ portRank m := of_decide_eq_true (Bool.and_eq_true_iff.mp hc).2
        refine ⟨[], older ++ m :: newer, rfl, by simp, by simp, fun k hk he => ?_⟩
        rcases List.mem_append.mp hk with hk | hk
        · exact le_trans hle (le_of_lt (hold k hk he))
        · rcases List.mem_cons.mp hk with rfl | hk
          · exact hle
          · exact le_trans hle (hnew k hk he)
      · next hc =>
        obtain rfl := Option.some.inj h
        have hlt : enabled i s = true → portRank m < portRank i := fun he => by simp [he] at hc; omega
        have hne : i ≠ m := fun e => by
          subst e
          exact absurd (hlt (firstEnabled_some hr).1) (lt_irrefl _)
        refine ⟨i :: older, newer, rfl, by simp [List.erase_cons_tail, hne, herase], fun k hk he => ?_, hnew⟩
        rcases List.mem_cons.mp hk with rfl | hk
        · exact hlt he
        · exact hold k hk he

/-- All a step can do. -/
theorem step_next (h : step s = .next t) :
    (∃ i, firstEnabled s s.host.waiting = some i ∧ exec i (s.release i) = .next t) ∨
    (firstEnabled s s.host.waiting = none ∧ ∃ w i rest, s.host.program = .word w :: rest ∧ decode w = .ok i ∧
      exec i (s.offer rest) = .next t) ∨
    (firstEnabled s s.host.waiting = none ∧ ∃ p rest, s.host.program = .edge p :: rest ∧
      clockEdge p (s.offer rest) = .next t) ∨
    (firstEnabled s s.host.waiting = none ∧ s.host.program = [] ∧ t = s) := by
  unfold step fetch at h
  cases hw : firstEnabled s s.host.waiting with
  | some i => rw [hw] at h; exact .inl ⟨i, rfl, h⟩
  | none =>
    rw [hw] at h
    cases hp : s.host.program with
    | nil => rw [hp] at h; exact .inr (.inr (.inr ⟨rfl, rfl, (Host.Outcome.next.inj h).symm⟩))
    | cons x rest =>
      rw [hp] at h
      cases x with
      | edge p => exact .inr (.inr (.inl ⟨rfl, p, rest, rfl, h⟩))
      | word w =>
        simp only [takeWord] at h
        cases hd : decode w with
        | ok i => rw [hd] at h; exact .inr (.inl ⟨rfl, w, i, rest, rfl, hd, h⟩)
        | error e => rw [hd] at h; cases h

/-- What every transaction keeps, and every sample and every change of the offers, a clock edge keeps. -/
theorem clockEdge_keeps (P : State → Prop) (hexec : ∀ i s t, P s → exec i s = .next t → P t)
    (hsample : ∀ p s, P s → P (sampleOutputs p s)) {p : PortInputs} (hs : P s) (h : clockEdge p s = .next t) : P t := by
  have hfire : ∀ b i s t, P s → fireIf b i s = .next t → P t := by
    intro b i s t hs h
    rcases fireIf_next h with ⟨-, h⟩ | ⟨-, rfl⟩
    · exact hexec i s t hs h
    · exact hs
  unfold clockEdge at h
  split at h
  · exact hexec _ _ _ (hsample p s hs) h
  · obtain ⟨u, hu, h⟩ := andThen_next h
    obtain ⟨u1, h1, hu⟩ := andThen_next hu
    obtain ⟨u2, h2, hu⟩ := andThen_next hu
    obtain ⟨v1, g1, h⟩ := andThen_next h
    obtain ⟨v2, g2, h⟩ := andThen_next h
    obtain ⟨v3, g3, h⟩ := andThen_next h
    exact hfire _ _ _ _ (hfire _ _ _ _ (hfire _ _ _ _ (hfire _ _ _ _ (hfire _ _ _ _ (hfire _ _ _ _
      (hfire _ _ _ _ (hsample p s hs) h1) h2) hu) g1) g2) g3) h

/-- What every transaction, every sample and every change of the offers keeps, every step keeps. -/
theorem step_keeps (P : State → Prop) (hexec : ∀ i s t, P s → exec i s = .next t → P t)
    (hsample : ∀ p s, P s → P (sampleOutputs p s)) (hrelease : ∀ i s, P s → P (s.release i))
    (hoffer : ∀ rest s, P s → P (s.offer rest)) (hs : P s) (h : step s = .next t) : P t := by
  rcases step_next h with ⟨i, -, h⟩ | ⟨-, w, i, rest, -, -, h⟩ | ⟨-, p, rest, -, h⟩ | ⟨-, -, rfl⟩
  · exact hexec _ _ _ (hrelease i s hs) h
  · exact hexec _ _ _ (hoffer rest s hs) h
  · exact clockEdge_keeps P hexec hsample (hoffer rest s hs) h
  · exact hs

end Sys2Proof.Machine
end

