-- ==== Sys2Proof/Tests/Slice0.lean ====
section
/-! SUPPORT. The model's own tests: expected values from 95_test_vectors.md and the rules' examples, and a witness for the
hypotheses of each obligation. -/

namespace Sys2Proof.Tests

open Sys2Proof Sys2Proof.Machine

/-! ## Small states -/

/-- The next state of one transaction, if it has one. -/
def next (i : Instr) (s : State) : Option State :=
  match exec i s with
  | .next t => some t
  | .fault _ => none
  | .refused _ => none

/-- What one transaction returns. -/
def returned (i : Instr) (s : State) : Option HostValue := (next i s).bind lastReturned

/-- The next state of one step, if it has one. -/
def stepped (s : State) : Option State :=
  match step s with
  | .next t => some t
  | .fault _ => none
  | .refused _ => none

/-- The refusal of one step, if it refuses. -/
def refusalOfStep (s : State) : Option Refusal :=
  match step s with
  | .next _ => none
  | .fault _ => none
  | .refused r => some r

/-- The registers of one clock edge's next state. -/
def afterEdge (p : PortInputs) (s : State) : Option (Encoder × Decoder) :=
  match clockEdge p s with
  | .next t => some (t.enc, t.dec)
  | .fault _ => none
  | .refused _ => none

/-- The transactions that fired at one clock edge, the newest first, of those a state with an empty trace sees. -/
def eventsOfEdge (p : PortInputs) (s : State) : List Event :=
  match clockEdge p s with
  | .next t => t.host.trace.take (t.host.trace.length - 1)
  | .fault _ => []
  | .refused _ => []

/-- The reset state with these encoder registers. -/
def withEnc (p : Symbol) (shift : Byte) (phase : BitVec 3) (busy : Bool) : State :=
  { State.reset with enc := { prev := p, shift := shift, phase := phase, busy := busy } }

/-- The reset state in a frame. -/
def withFrame (p : Symbol) (acc : Byte) (count nslots : BitVec 4) : State :=
  { State.reset with dec := { Decoder.reset with prev := p, acc := acc, count := count, nslots := nslots } }

/-- The reset state with a result that waits. -/
def withResult (p : Symbol) (st : Status) (n : BitVec 4) (b : Byte) : State :=
  { State.reset with
    dec := { Decoder.reset with prev := p, resValid := true, resStatus := st, resNslots := n, resByte := b } }

/-- The same state under another budget. -/
def budgeted (n : Nat) (s : State) : State := { s with config := { s.config with decBudget := n } }

/-- The same state with `IDLE_COUNTS = true`. -/
def countingIdles (s : State) : State := { s with config := { s.config with idleCounts := true } }

/-- The same state with `ENC_MARKER = Mark2`. -/
def markingTwo (s : State) : State := { s with config := { s.config with encMarker := .mark2 } }

/-- The same state with these offers. -/
def offering (program : List HostInput) (waiting : List Instr) (s : State) : State :=
  { s with host := { s.host with program := program, waiting := waiting } }

/-- A `SYMBOL_CODE` other than the default one. -/
def otherCode : SymbolCode where
  d0 := 0b111#3
  d1 := 0b011#3
  d2 := 0b001#3
  d3 := 0b010#3
  d4 := 0b110#3
  mark1 := 0b100#3
  mark2 := 0b101#3

/-- The same state under that `SYMBOL_CODE`. -/
def recoded (s : State) : State := { s with config := { s.config with symbolCode := otherCode } }

/-- Nothing is driven on the input ports. -/
def quiet : PortInputs where
  rst := false
  encInValid := false
  encInByte := 0x00#8
  encPrevLoad := false
  encPrevIn := 0b000#3
  encOutReady := false
  decInValid := false
  decInSym := 0b000#3
  decFlush := false
  decPrevLoad := false
  decPrevIn := 0b000#3
  decOutReady := false
  romPrevIn := 0b000#3
  romVIn := 0b00#2
  obsIncIn := 0b000#3
  obsPrevIn := 0b000#3
  fmdSymIn := 0b000#3

/-- Everything is driven at once: D3 as channel state, byte `0x80`, symbol D1, a flush, every ready. -/
def busyPorts : PortInputs :=
  { quiet with
    encInValid := true
    encInByte := 0x80#8
    encPrevLoad := true
    encPrevIn := 0b100#3
    encOutReady := true
    decInValid := true
    decInSym := 0b010#3
    decFlush := true
    decPrevLoad := true
    decPrevIn := 0b111#3
    decOutReady := true }

/-! ## WellFormed: one ill-formed term for each check -/

/-- R6: `DEC_BUDGET` is at least 1. -/
theorem test_budget_zero_ill_formed : { Config.standard with decBudget := 0 }.wellFormed = false := by decide

/-- R6: `DEC_BUDGET` is at most 15. -/
theorem test_budget_sixteen_ill_formed : { Config.standard with decBudget := 16 }.wellFormed = false := by decide

/-- R6: both ends of the range are allowed. -/
theorem test_budget_ends_well_formed :
    { Config.standard with decBudget := 1 }.wellFormed = true ∧
    { Config.standard with decBudget := 15 }.wellFormed = true := by decide

/-- R9: two symbols may not share a code. -/
theorem test_repeated_code_ill_formed :
    { SymbolCode.standard with mark2 := 0b001#3 }.wellFormed = false := by decide

/-- R9: `000` is the code of `Closed` alone. -/
theorem test_code_of_closed_reused_ill_formed :
    { SymbolCode.standard with d4 := 0b000#3 }.wellFormed = false := by decide

/-- The default parameters (R6 to R9), and another `SYMBOL_CODE`. -/
theorem test_parameters_well_formed : Config.standard.wellFormed = true ∧ otherCode.wellFormed = true := by decide

/-- R81, V7: the reserved ops. -/
theorem test_reserved_ops_refused :
    decode 0x0000#16 = .error .reservedOp ∧ decode 0xC000#16 = .error .reservedOp ∧
    decode 0xD123#16 = .error .reservedOp ∧ decode 0xE000#16 = .error .reservedOp := by decide

/-- R81, V7: a 1 in a payload bit the row does not name, one word for each op, the encoder's and the decoder's. -/
theorem test_unnamed_payload_bit_refused :
    decode 0x1100#16 = .error .illFormed ∧ decode 0x2001#16 = .error .illFormed ∧
    decode 0x3008#16 = .error .illFormed ∧ decode 0x4010#16 = .error .illFormed ∧
    decode 0x5001#16 = .error .illFormed ∧ decode 0x6100#16 = .error .illFormed ∧
    decode 0x7001#16 = .error .illFormed := by decide

/-- R81, V7: the same for the probes and `RESET`. -/
theorem test_unnamed_probe_bit_refused :
    decode 0x8008#16 = .error .illFormed ∧ decode 0x9008#16 = .error .illFormed ∧
    decode 0x9040#16 = .error .illFormed ∧ decode 0xA008#16 = .error .illFormed ∧
    decode 0xA080#16 = .error .illFormed ∧ decode 0xB008#16 = .error .illFormed ∧
    decode 0xF001#16 = .error .illFormed := by decide

/-! ## Decode: a word written out bit by bit from R80 for each constructor -/

theorem test_decode_enc_byte : decode 0b0001_0000_01001000#16 = .ok (.encByte 0x48#8) := by decide
theorem test_decode_enc_sym : decode 0b0010_000000000000#16 = .ok .encSym := by decide
theorem test_decode_enc_set_prev : decode 0b0011_000000000_100#16 = .ok (.encSetPrev 0b100#3) := by decide
theorem test_decode_dec_sym : decode 0b0100_000000000_011#16 = .ok (.decSym 0b011#3) := by decide
theorem test_decode_dec_flush : decode 0b0101_000000000000#16 = .ok .decFlush := by decide
theorem test_decode_dec_set_prev : decode 0b0110_000000000_111#16 = .ok (.decSetPrev 0b111#3) := by decide
theorem test_decode_dec_result : decode 0b0111_000000000000#16 = .ok .decResult := by decide
theorem test_decode_rom_offset : decode 0b1000_000000000_101#16 = .ok (.romOffset 0b101#3) := by decide
theorem test_decode_rom_emit : decode 0b1001_000000_10_0_100#16 = .ok (.romEmit 0b10#2 0b100#3) := by decide
theorem test_decode_observe : decode 0b1010_00000_001_0_100#16 = .ok (.observe 0b001#3 0b100#3) := by decide
theorem test_decode_fmd_classify : decode 0b1011_000000000_110#16 = .ok (.fmdClassify 0b110#3) := by decide
theorem test_decode_reset : decode 0b1111_000000000000#16 = .ok .reset := by decide

/-- R79: the word of spec/opcode_table.json's numbering, and a number of bits that names no word. -/
theorem test_decode_table_word :
    decodeTableWord 16 0x9024 = some (.romEmit 0b10#2 0b100#3) ∧ decodeTableWord 16 0x9040 = none ∧
    decodeTableWord 24 0x9024 = none := by decide

/-- R79: the placed word is the one the next step runs. -/
theorem test_fetch_runs_placed_word :
    (stepped (State.reset.withFetchWord 16 0x1048)).map (·.enc) =
      some { prev := .closed, shift := 0x48#8, phase := 0#3, busy := true } := by decide

/-! ## One transaction each -/

/-- R131, its example. -/
theorem test_enc_byte :
    (next (.encByte 0x48#8) State.reset).map (·.enc) =
      some { prev := .closed, shift := 0x48#8, phase := 0#3, busy := true } := by decide

/-- R131, V4: a second byte waits, and changes no register. -/
theorem test_enc_byte_waits :
    (next (.encByte 0x49#8) (withEnc .closed 0x48#8 0#3 true)).map (fun t => (t.enc, t.host.waiting, t.host.trace)) =
      some ((withEnc .closed 0x48#8 0#3 true).enc, [.encByte 0x49#8], []) := by decide

/-- V4: the second symbol of `0x48` is D2, and leaves `enc_shift = 0x80` and `enc_phase = 2`. -/
theorem test_enc_sym_data :
    (next .encSym (withEnc .d1 0x20#8 1#3 true)).map (fun t => (t.enc, lastReturned t)) =
      some ({ prev := .d2, shift := 0x80#8, phase := 2#3, busy := true }, some (.symbolCode 0b011#3)) := by decide

/-- V4: the fifth symbol is the marker, here with `ENC_MARKER = Mark2`. -/
theorem test_enc_sym_marker :
    (next .encSym (markingTwo (withEnc .d1 0x00#8 4#3 true))).map (fun t => (t.enc, lastReturned t)) =
      some ({ prev := .mark2, shift := 0x00#8, phase := 0#3, busy := false }, some (.symbolCode 0b110#3)) := by decide

/-- R133: only `enc_prev` is written, here under another `SYMBOL_CODE`. -/
theorem test_enc_set_prev :
    (next (.encSetPrev 0b010#3) (recoded (withEnc .mark1 0x00#8 0#3 false))).map (·.enc) =
      some { prev := .d3, shift := 0x00#8, phase := 0#3, busy := false } := by decide

/-- The frame goes on: R171's example, and V5 D15, the non-encoder pair D4 after Mark1, which is `Data(0)`. -/
theorem test_dec_sym_goes_on :
    (next (.decSym 0b010#3) State.reset).map (·.dec) = some (withFrame .d1 0x01#8 1#4 1#4).dec ∧
    (next (.decSym 0b101#3) (withFrame .mark1 0x00#8 0#4 0#4)).map (·.dec) =
      some (withFrame .d4 0x00#8 1#4 1#4).dec := by decide

/-- The frame ends: V5 D9 (the eighth data symbol), D10 and R207 (a marker as the eighth transition succeeds), D5 (channel
down), D19 (`DEC_BUDGET = 5`), D21 (`IDLE_COUNTS = true`). -/
theorem test_dec_sym_ends_frame :
    (next (.decSym 0b010#3) (withFrame .d0 0x33#8 7#4 7#4)).map (·.dec) =
      some (withResult .d1 .errFraming 8#4 0xCC#8).dec ∧
    (next (.decSym 0b111#3) (withFrame .d0 0x33#8 7#4 7#4)).map (·.dec) =
      some (withResult .mark1 .okMark1 7#4 0x33#8).dec ∧
    (next (.decSym 0b000#3) (withFrame .d2 0x04#8 2#4 2#4)).map (·.dec) =
      some (withResult .closed .errChannelClosed 2#4 0x04#8).dec ∧
    (next (.decSym 0b001#3) (budgeted 5 (withFrame .d1 0x0C#8 4#4 4#4))).map (·.dec) =
      some (withResult .d0 .errFraming 5#4 0x33#8).dec ∧
    (next (.decSym 0b010#3) (countingIdles (withFrame .d1 0x48#8 7#4 4#4))).map (·.dec) =
      some (withResult .d1 .errFraming 4#4 0x48#8).dec := by decide

/-- R172, its example. -/
theorem test_dec_flush :
    (next .decFlush (withFrame .d2 0x04#8 2#4 2#4)).map (·.dec) =
      some (withResult .d2 .errFraming 2#4 0x04#8).dec := by decide

/-- V5, D17: a flush between frames changes no register. -/
theorem test_dec_flush_between_frames :
    (next .decFlush (withFrame .mark1 0x00#8 0#4 0#4)).map (·.dec) = some (withFrame .mark1 0x00#8 0#4 0#4).dec := by
  decide

/-- V5, D18: the frame is abandoned with no result. -/
theorem test_dec_set_prev :
    (next (.decSetPrev 0b111#3) (withFrame .d2 0x04#8 2#4 2#4)).map (·.dec) =
      some (withFrame .mark1 0x00#8 0#4 0#4).dec := by decide

/-- R172, its example: the result word `0x3204`. -/
theorem test_dec_result :
    (next .decResult (withResult .d2 .errFraming 2#4 0x04#8)).map (fun t => (t.dec.resValid, lastReturned t)) =
      some (false, some (.resultWord 0x3204#14)) := by decide

/-- R78: the result word of 'H'. -/
theorem test_dec_result_ok :
    returned .decResult (withResult .mark1 .okMark1 4#4 0x48#8) = some (.resultWord 0x0448#14) := by decide

/-- E1, R111: the offset of D4 is 5. -/
theorem test_rom_offset : returned (.romOffset 0b101#3) State.reset = some (.offsetWord 5#3) := by decide

/-- E1: the offset of Mark1 is 0, here under another `SYMBOL_CODE`. -/
theorem test_rom_offset_recoded : returned (.romOffset 0b100#3) (recoded State.reset) = some (.offsetWord 0#3) := by decide

/-- R120, its example. -/
theorem test_rom_emit : returned (.romEmit 2#2 0b100#3) State.reset = some (.symbolCode 0b010#3) := by decide

/-- V1: `rom.emit 3, D0` gives D4. -/
theorem test_rom_emit_d4 : returned (.romEmit 3#2 0b001#3) State.reset = some (.symbolCode 0b101#3) := by decide

/-- R154, its example: incoming and previous are not exchanged. -/
theorem test_observe : returned (.observe 0b001#3 0b100#3) State.reset = some (.outcomeWord 0b10001#5) := by decide

/-- V3: a repeated marker is `Idle`. -/
theorem test_observe_idle : returned (.observe 0b111#3 0b111#3) State.reset = some (.outcomeWord 0b00000#5) := by decide

/-- R153, its example. -/
theorem test_fmd_classify : returned (.fmdClassify 0b101#3) State.reset = some (.classWord 0b01100#5) := by decide

/-- V2: Mark2. -/
theorem test_fmd_classify_mark2 : returned (.fmdClassify 0b110#3) State.reset = some (.classWord 0b11000#5) := by decide

/-- V6, on the decoder: what is in flight is lost with no result. -/
theorem test_reset :
    (next .reset (withFrame .d2 0x04#8 2#4 2#4)).map (fun t => (t.enc, t.dec)) =
      some (Encoder.reset, Decoder.reset) := by decide

/-- V6, on the encoder, with a parameter that is not the default: R36 keeps it. -/
theorem test_reset_keeps_parameters :
    (next .reset (markingTwo (withEnc .d1 0x20#8 1#3 true))).map (fun t => (t.enc, t.config.encMarker)) =
      some (Encoder.reset, .mark2) := by decide

/-! ## The step and the clock edge -/

/-- R82: the offer that waited fires when it has become enabled, before the next offer. -/
theorem test_held_offer_fires :
    (stepped (offering [.word 0xF000#16] [.encByte 0x49#8] State.reset)).map (fun t => (t.enc.shift, t.host.waiting)) =
      some (0x49#8, []) := by decide

/-- R81: a reserved word is refused by name. -/
theorem test_step_refuses : refusalOfStep (offering [.word 0xD123#16] [] State.reset) = some (.reservedOp 0xD123#16) := by
  decide

/-- R87: at one edge the loaded channel state comes before the byte, and `DEC_SET_PREV` before the flush and the symbol. -/
theorem test_edge_order :
    afterEdge busyPorts (withFrame .d2 0x04#8 2#4 2#4) =
      some ({ prev := .d3, shift := 0x80#8, phase := 0#3, busy := true }, (withFrame .mark1 0x00#8 0#4 0#4).dec) := by
  decide

/-- R87: while the encoder is busy only its symbol is taken; while a result waits only the result is. -/
theorem test_edge_takes_outputs :
    afterEdge busyPorts { withEnc .d3 0x80#8 0#3 true with dec := (withResult .mark1 .okMark1 0#4 0x00#8).dec } =
      some ((withEnc .d1 0x00#8 1#3 true).enc,
        { (withResult .mark1 .okMark1 0#4 0x00#8).dec with resValid := false }) := by decide

/-- R87, R88: what is taken at that edge is what the ports showed: the code of D1, and the result word `0x0000`. -/
theorem test_edge_returns :
    eventsOfEdge busyPorts { withEnc .d3 0x80#8 0#3 true with dec := (withResult .mark1 .okMark1 0#4 0x00#8).dec } =
      [.fired .decResult (some (.resultWord 0x0000#14)), .fired .encSym (some (.symbolCode 0b010#3))] := by decide

/-- R84, R77: the result ports of R172's example. -/
theorem test_result_ports :
    (portOutputs quiet (withResult .d2 .errFraming 2#4 0x04#8)).decOutStatus = 0b11#2 ∧
    (portOutputs quiet (withResult .d2 .errFraming 2#4 0x04#8)).decOutNslots = 2#4 ∧
    (portOutputs quiet (withResult .d2 .errFraming 2#4 0x04#8)).decOutByte = 0x04#8 := by decide

/-- R87: `RESET` alone while `rst = 1`. -/
theorem test_edge_reset :
    afterEdge { busyPorts with rst := true } (withFrame .d2 0x04#8 2#4 2#4) = some (Encoder.reset, Decoder.reset) := by
  decide

/-! ## Syntax: R89's and R90's examples -/

theorem test_line_enc_byte :
    (readLine "enc.byte 0x48 ; 'H'".toList).map (lineWords SymbolCode.standard) = some [0x1048#16] := by decide

theorem test_line_rom_emit :
    (readLine "rom.emit 2, D3 -> 010".toList).map (lineWords SymbolCode.standard) = some [0x9024#16] := by decide

theorem test_line_dec_frame :
    (readLine "dec.frame D1, Mark1".toList).map (lineWords SymbolCode.standard) =
      some [0x4002#16, 0x4007#16, 0x7000#16] := by decide

theorem test_line_enc_string :
    (readLine "enc.string \"I\"".toList).map (lineWords SymbolCode.standard) =
      some [0x1049#16, 0x2000#16, 0x2000#16, 0x2000#16, 0x2000#16, 0x2000#16] := by decide

/-! ## Witnesses: for each obligation with hypotheses, values that meet them all -/

/-- The encoder after the first symbol of `0x48`, with the trace that a run leaves. -/
def firstSymbolOut : State :=
  { withEnc .d1 0x20#8 1#3 true with
    host := { HostSide.fresh with
      program := [.word 0x2000#16]
      trace := [.fired .encSym (some (.symbolCode 0b010#3)), .fired (.encByte 0x48#8) none] } }

theorem inv_reset : MachineInv State.reset :=
  ⟨by decide, ⟨by decide, by decide, by decide⟩, ⟨by decide, by decide, by decide, by decide, by decide, by decide⟩⟩

theorem inv_first_symbol_out : MachineInv firstSymbolOut :=
  ⟨by decide, ⟨by decide, by decide, by decide⟩, ⟨by decide, by decide, by decide, by decide, by decide, by decide⟩⟩

theorem inv_last_phase : MachineInv (withEnc .d1 0x00#8 4#3 true) :=
  ⟨by decide, ⟨by decide, by decide, by decide⟩, ⟨by decide, by decide, by decide, by decide, by decide, by decide⟩⟩

theorem inv_last_transition : MachineInv (withFrame .d0 0x33#8 7#4 7#4) :=
  ⟨by decide, ⟨by decide, by decide, by decide⟩, ⟨by decide, by decide, by decide, by decide, by decide, by decide⟩⟩

theorem inv_result_waits : MachineInv (withResult .closed .errChannelClosed 2#4 0x04#8) :=
  ⟨by decide, ⟨by decide, by decide, by decide⟩, ⟨by decide, by decide, by decide, by decide, by decide, by decide⟩⟩

theorem inv_small_budget : MachineInv (budgeted 2 (withResult .mark1 .okMark1 2#4 0x04#8)) :=
  ⟨by decide, ⟨by decide, by decide, by decide⟩, ⟨by decide, by decide, by decide, by decide, by decide, by decide⟩⟩

theorem inv_link_at_five : MachineInv (countingIdles (budgeted 5 State.reset)) :=
  ⟨by decide, ⟨by decide, by decide, by decide⟩, ⟨by decide, by decide, by decide, by decide, by decide, by decide⟩⟩

theorem stream_first_symbol_out : StreamInv firstSymbolOut := ⟨by decide, by decide, by decide, fun _ _ => rfl⟩

theorem witness_DecodeInvertsEncode :
    decode 0xA077#16 = .ok (.observe 7#3 7#3) ∧ encode (.observe 7#3 7#3) = 0xA077#16 := by decide

theorem witness_DecodeFollowsOpcodeTable :
    (⟨"OBSERVE", 0xA000#16, 0xFF88#16⟩ : OpcodeRow) ∈ opcodeTable ∧
    (⟨"OBSERVE", 0xA000#16, 0xFF88#16⟩ : OpcodeRow).admits 0xA077#16 = true ∧
    decode 0xA077#16 = .ok (.observe 7#3 7#3) := by decide

theorem witness_ReservedWord :
    (∀ i ∈ (offering [.word 0xE000#16] [.encSym] State.reset).host.waiting,
      enabled i (offering [.word 0xE000#16] [.encSym] State.reset) = false) ∧
    isReservedOp 0xE000#16 = true := by decide

theorem witness_IllFormedWord :
    (∀ i ∈ (offering [.word 0x9040#16] [] State.reset).host.waiting,
      enabled i (offering [.word 0x9040#16] [] State.reset) = false) ∧
    isReservedOp 0x9040#16 = false ∧ ∀ r ∈ opcodeTable, r.admits 0x9040#16 = false := by decide

theorem witness_StepRunsOfferedTransaction :
    (∀ j ∈ (offering [.word 0x2000#16, .word 0x7000#16] [.encByte 0x49#8] (withEnc .d1 0x20#8 1#3 true)).host.waiting,
      enabled j (offering [.word 0x2000#16, .word 0x7000#16] [.encByte 0x49#8] (withEnc .d1 0x20#8 1#3 true)) = false) ∧
    decode 0x2000#16 = .ok .encSym := by decide

theorem witness_StepFiresHeldOffer :
    Instr.decSym 2#3 ∈ (offering [] [.decSym 2#3, .encByte 0x49#8] State.reset).host.waiting ∧
    enabled (.decSym 2#3) (offering [] [.decSym 2#3, .encByte 0x49#8] State.reset) = true := by decide

/-- Each clause of the spelled order: what is taken up is the offer it names. -/
theorem witness_StepFiresHeldOffer_order :
    firstEnabled State.reset [.encSetPrev 4#3, .reset] = some .reset ∧
    firstEnabled State.reset [.encByte 0x48#8, .encByte 0x49#8] = some (.encByte 0x48#8) ∧
    firstEnabled State.reset [.encByte 0x48#8, .encSetPrev 4#3] = some (.encSetPrev 4#3) ∧
    firstEnabled State.reset [.decSym 2#3, .decFlush] = some .decFlush ∧
    firstEnabled State.reset [.decSym 2#3, .decFlush, .decSetPrev 7#3] = some (.decSetPrev 7#3) ∧
    firstEnabled State.reset [.decResult, .decSym 2#3, .decSym 3#3] = some (.decSym 2#3) := by decide

theorem witness_StepRunsClockEdge :
    (∀ j ∈ (offering [.edge busyPorts] [.decResult] State.reset).host.waiting,
      enabled j (offering [.edge busyPorts] [.decResult] State.reset) = false) ∧
    (offering [.edge busyPorts] [.decResult] State.reset).host.program = [.edge busyPorts] := by decide

theorem witness_StepHoldsAllState :
    (∀ j ∈ (offering [] [.encSym, .decResult] State.reset).host.waiting,
      enabled j (offering [] [.encSym, .decResult] State.reset) = false) ∧
    (offering [] [.encSym, .decResult] State.reset).host.program = [] := by decide

theorem witness_DisabledTransactionWaits :
    (withEnc .d1 0x20#8 1#3 true).enc.busy = true ∧ State.reset.enc.busy = false ∧
    (withResult .mark1 .okMark1 0#4 0x00#8).dec.resValid = true ∧ State.reset.dec.resValid = false := by decide

theorem witness_encSym_lifted :
    MachineInv State.reset ∧ enabled .encSym State.reset = false ∧
    ∃ t, exec (.encByte 0x48#8) State.reset = .next t ∧ enabled .encSym t = true :=
  ⟨inv_reset, by decide, _, rfl, by decide⟩

theorem witness_encByte_lifted_by_marker :
    MachineInv (withEnc .d1 0x00#8 4#3 true) ∧ enabled (.encByte 0x49#8) (withEnc .d1 0x00#8 4#3 true) = false ∧
    ∃ t, exec .encSym (withEnc .d1 0x00#8 4#3 true) = .next t ∧ enabled (.encByte 0x49#8) t = true :=
  ⟨inv_last_phase, by decide, _, rfl, by decide⟩

theorem witness_encSetPrev_lifted_by_reset :
    MachineInv firstSymbolOut ∧ enabled (.encSetPrev 4#3) firstSymbolOut = false ∧
    ∃ t, exec .reset firstSymbolOut = .next t ∧ enabled (.encSetPrev 4#3) t = true :=
  ⟨inv_first_symbol_out, by decide, _, rfl, by decide⟩

theorem witness_decResult_lifted_by_symbol :
    MachineInv State.reset ∧ enabled .decResult State.reset = false ∧
    ∃ t, exec (.decSym 7#3) State.reset = .next t ∧ enabled .decResult t = true :=
  ⟨inv_reset, by decide, _, rfl, by decide⟩

theorem witness_decResult_lifted_by_flush :
    MachineInv (withFrame .d0 0x33#8 7#4 7#4) ∧ enabled .decResult (withFrame .d0 0x33#8 7#4 7#4) = false ∧
    ∃ t, exec .decFlush (withFrame .d0 0x33#8 7#4 7#4) = .next t ∧ enabled .decResult t = true :=
  ⟨inv_last_transition, by decide, _, rfl, by decide⟩

theorem witness_decoder_inputs_lifted_by_result :
    MachineInv (withResult .closed .errChannelClosed 2#4 0x04#8) ∧
    enabled (.decSym 2#3) (withResult .closed .errChannelClosed 2#4 0x04#8) = false ∧
    enabled .decFlush (withResult .closed .errChannelClosed 2#4 0x04#8) = false ∧
    enabled (.decSetPrev 2#3) (withResult .closed .errChannelClosed 2#4 0x04#8) = false ∧
    ∃ t, exec .decResult (withResult .closed .errChannelClosed 2#4 0x04#8) = .next t ∧
      enabled (.decSym 2#3) t = true ∧ enabled .decFlush t = true ∧ enabled (.decSetPrev 2#3) t = true :=
  ⟨inv_result_waits, by decide, by decide, by decide, _, rfl, by decide, by decide, by decide⟩

/-- What each wait's lifting needs: a byte, the marker's phase, a waiting result, a symbol or a flush that ends a frame. -/
theorem witness_WaitsAreLifted :
    State.reset.enc.busy = false ∧ (withEnc .d1 0x00#8 4#3 true).enc.busy = true ∧
    (withEnc .d1 0x00#8 4#3 true).enc.phase = 4#3 ∧ (withResult .mark1 .okMark1 0#4 0x00#8).dec.resValid = true ∧
    (withFrame .d0 0x33#8 7#4 7#4).config.symbolCode.wellFormed = true ∧
    (withFrame .d0 0x33#8 7#4 7#4).dec.resValid = false ∧ (withFrame .d0 0x33#8 7#4 7#4).dec.count ≠ 0#4 ∧
    isData .mark1 = false ∧ Symbol.mark1 ≠ (withFrame .d0 0x33#8 7#4 7#4).dec.prev ∧
    (withFrame .d0 0x33#8 7#4 7#4).dec.count.toNat + 1 = (withFrame .d0 0x33#8 7#4 7#4).config.decBudget ∧
    isData .d1 = true ∧ Symbol.d1 ≠ (withFrame .d0 0x33#8 7#4 7#4).dec.prev ∧
    (countingIdles (withFrame .d0 0x33#8 7#4 4#4)).dec.count.toNat + 1 =
      (countingIdles (withFrame .d0 0x33#8 7#4 4#4)).config.decBudget ∧
    Symbol.d0 = (countingIdles (withFrame .d0 0x33#8 7#4 4#4)).dec.prev ∧
    (countingIdles (withFrame .d0 0x33#8 7#4 4#4)).config.idleCounts = true := by decide

theorem witness_wellFormed_symbol_codes :
    State.reset.config.symbolCode.wellFormed = true ∧ State.reset.config.symbolCode = SymbolCode.standard ∧
    (recoded State.reset).config.symbolCode.wellFormed = true := by decide

theorem witness_EmitProperties :
    offset .closed = 0 ∧ isData .d4 = true ∧ isData .mark2 = false ∧ emit 3#2 .d4 = .d3 := by decide

theorem witness_ProbesHaveNoSideEffect :
    isProbe (.observe 1#3 4#3) = true ∧ State.reset.config = (withFrame .d2 0x04#8 2#4 2#4).config ∧
    State.reset.dec ≠ (withFrame .d2 0x04#8 2#4 2#4).dec := by decide

theorem witness_EncByteAcceptsByte : (withEnc .mark1 0x00#8 0#3 false).enc.busy = false := by decide

theorem witness_EncSymHandsOutDataSymbol :
    (withEnc .closed 0x48#8 0#3 true).config.symbolCode.wellFormed = true ∧
    (withEnc .closed 0x48#8 0#3 true).enc.busy = true ∧ (withEnc .closed 0x48#8 0#3 true).enc.phase < 4#3 ∧
    (withEnc .d0 0x00#8 3#3 true).enc.busy = true ∧ (withEnc .d0 0x00#8 3#3 true).enc.phase < 4#3 := by decide

theorem witness_EncSymHandsOutMarker :
    (withEnc .d1 0x00#8 4#3 true).enc.busy = true ∧ (withEnc .d1 0x00#8 4#3 true).enc.phase = 4#3 := by decide

theorem witness_EncSymAfterNonDataSymbol :
    (withEnc .mark2 0xC0#8 0#3 true).config.symbolCode.wellFormed = true ∧
    (withEnc .mark2 0xC0#8 0#3 true).enc.busy = true ∧ (withEnc .mark2 0xC0#8 0#3 true).enc.phase < 4#3 ∧
    isData (withEnc .mark2 0xC0#8 0#3 true).enc.prev = false := by decide

theorem witness_EncSetPrevLoadsChannelState :
    (recoded (withEnc .mark1 0x00#8 0#3 false)).config.symbolCode.wellFormed = true ∧
    (recoded (withEnc .mark1 0x00#8 0#3 false)).enc.busy = false := by decide

/-- E4: the symbols of `0x48` from `Closed`. -/
theorem witness_EncodeByteCorrespondence :
    State.reset.config.symbolCode.wellFormed = true ∧ State.reset.enc.busy = false ∧
    Symbol.d1 = emit ((0x48#8).extractLsb' 6 2) State.reset.enc.prev ∧
    Symbol.d2 = emit ((0x48#8).extractLsb' 4 2) .d1 ∧ Symbol.d0 = emit ((0x48#8).extractLsb' 2 2) .d2 ∧
    Symbol.d1 = emit ((0x48#8).extractLsb' 0 2) .d0 := by decide

theorem witness_StepKeepsStreamInvariant :
    MachineInv firstSymbolOut ∧ StreamInv firstSymbolOut ∧
    ∃ t, step firstSymbolOut = .next t ∧ handedOut t.host.trace = [0b011#3, 0b010#3] :=
  ⟨inv_first_symbol_out, stream_first_symbol_out, _, rfl, by decide⟩

theorem witness_ChannelStateNotClosedByEncoding :
    (withEnc .mark1 0x00#8 0#3 false).config.wellFormed = true ∧ (withEnc .mark1 0x00#8 0#3 false).enc.prev ≠ .closed ∧
    ∃ t u, exec (.encSetPrev 0#3) (withEnc .mark1 0x00#8 0#3 false) = .next t ∧ t.enc.prev = .closed ∧
      exec .reset (withEnc .mark1 0x00#8 0#3 false) = .next u ∧ u.enc.prev = .closed :=
  ⟨by decide, by decide, _, _, rfl, by decide, rfl, by decide⟩

theorem witness_AgentsUseOwnRegistersOnly :
    State.reset.config = (withFrame .d2 0x04#8 2#4 2#4).config ∧ State.reset.enc = (withFrame .d2 0x04#8 2#4 2#4).enc ∧
    isEncoderOp (.encByte 0x48#8) = true ∧
    State.reset.config = (withEnc .d1 0x20#8 1#3 true).config ∧ State.reset.dec = (withEnc .d1 0x20#8 1#3 true).dec ∧
    isDecoderOp (.decSym 2#3) = true := by decide

theorem witness_AgentsCommute : isEncoderOp .encSym = true ∧ isDecoderOp (.decSym 2#3) = true := by decide

theorem witness_StepKeepsParameters :
    ∃ t, step (markingTwo (offering [.word 0xF000#16] [] State.reset)) = .next t ∧ t.config.encMarker = .mark2 :=
  ⟨_, rfl, by decide⟩

theorem witness_DecSymIdleChangesNothing :
    (withFrame .d2 0x04#8 2#4 2#4).config.symbolCode.wellFormed = true ∧
    (withFrame .d2 0x04#8 2#4 2#4).config.idleCounts = false ∧
    (withFrame .d2 0x04#8 2#4 2#4).dec.resValid = false := by decide

/-- Below the budget at the first and at the last such count; at the budget. -/
theorem witness_DecSymIdleCounted :
    (countingIdles (withFrame .d2 0x04#8 6#4 2#4)).config.symbolCode.wellFormed = true ∧
    (countingIdles (withFrame .d2 0x04#8 6#4 2#4)).config.idleCounts = true ∧
    (countingIdles (withFrame .d2 0x04#8 6#4 2#4)).dec.resValid = false ∧
    (countingIdles State.reset).dec.count.toNat + 1 < (countingIdles State.reset).config.decBudget ∧
    (countingIdles (withFrame .d2 0x04#8 6#4 2#4)).dec.count.toNat + 1 <
      (countingIdles (withFrame .d2 0x04#8 6#4 2#4)).config.decBudget ∧
    (countingIdles (withFrame .d2 0x04#8 7#4 2#4)).dec.count.toNat + 1 =
      (countingIdles (withFrame .d2 0x04#8 7#4 2#4)).config.decBudget := by decide

theorem witness_DecSymChannelDown :
    (withFrame .d2 0x04#8 2#4 2#4).config.symbolCode.wellFormed = true ∧
    (withFrame .d2 0x04#8 2#4 2#4).dec.resValid = false ∧ (withFrame .d2 0x04#8 2#4 2#4).dec.prev ≠ .closed := by decide

theorem witness_DecSymMarkerEndsFrame :
    (withFrame .mark2 0x00#8 0#4 0#4).config.symbolCode.wellFormed = true ∧
    (withFrame .mark2 0x00#8 0#4 0#4).dec.resValid = false ∧ (withFrame .mark2 0x00#8 0#4 0#4).dec.prev ≠ .mark1 ∧
    (withFrame .mark1 0x00#8 0#4 0#4).dec.prev ≠ .mark2 := by decide

/-- Below the budget and at it; the smallest budget is used up by the first symbol. -/
theorem witness_DecSymDataShiftsIn :
    (withFrame .d0 0x33#8 7#4 7#4).config.symbolCode.wellFormed = true ∧
    (withFrame .d0 0x33#8 7#4 7#4).dec.resValid = false ∧ isData .d1 = true ∧
    Symbol.d1 ≠ (withFrame .d0 0x33#8 7#4 7#4).dec.prev ∧ Symbol.d1 ≠ State.reset.dec.prev ∧
    State.reset.dec.count.toNat + 1 < State.reset.config.decBudget ∧
    (withFrame .d0 0x33#8 7#4 7#4).dec.count.toNat + 1 = (withFrame .d0 0x33#8 7#4 7#4).config.decBudget ∧
    (budgeted 1 State.reset).dec.count.toNat + 1 = (budgeted 1 State.reset).config.decBudget := by decide

theorem witness_DecFlushEndsOpenFrame :
    (withFrame .d2 0x04#8 2#4 2#4).dec.resValid = false ∧ (withFrame .d2 0x04#8 2#4 2#4).dec.count ≠ 0#4 ∧
    State.reset.dec.resValid = false ∧ State.reset.dec.count = 0#4 := by decide

theorem witness_DecSetPrevStartsFrame :
    (withFrame .d2 0x04#8 2#4 2#4).config.symbolCode.wellFormed = true ∧
    (withFrame .d2 0x04#8 2#4 2#4).dec.resValid = false := by decide

theorem witness_DecResultReturnsWord : (withResult .mark1 .okMark1 4#4 0x48#8).dec.resValid = true := by decide

theorem witness_FrameEndClearsFrame :
    (withFrame .d2 0x04#8 2#4 2#4).dec.resValid = false ∧
    ∃ t u, exec (.decSym 0#3) (withFrame .d2 0x04#8 2#4 2#4) = .next t ∧ t.dec.resValid = true ∧
      exec .decFlush (withFrame .d2 0x04#8 2#4 2#4) = .next u ∧ u.dec.resValid = true :=
  ⟨by decide, _, _, rfl, by decide, rfl, by decide⟩

/-- Each cause: a data symbol, a counted repeat, a flush. -/
theorem witness_FramingErrorCauses :
    (withFrame .d0 0x33#8 7#4 7#4).config.wellFormed = true ∧ (withFrame .d0 0x33#8 7#4 7#4).dec.resValid = false ∧
    (countingIdles (withFrame .d1 0x48#8 7#4 4#4)).config.wellFormed = true ∧
    ∃ t u v, exec (.decSym 2#3) (withFrame .d0 0x33#8 7#4 7#4) = .next t ∧ t.dec.resStatus = .errFraming ∧
      exec (.decSym 2#3) (countingIdles (withFrame .d1 0x48#8 7#4 4#4)) = .next u ∧ u.dec.resStatus = .errFraming ∧
      exec .decFlush (withFrame .d0 0x33#8 7#4 7#4) = .next v ∧ v.dec.resStatus = .errFraming :=
  ⟨by decide, by decide, by decide, _, _, _, rfl, by decide, rfl, by decide, rfl, by decide⟩

theorem witness_WaitingResultIsKept :
    (withResult .mark1 .okMark1 4#4 0x48#8).dec.resValid = true ∧
    ∃ t u v, exec .decResult (withResult .mark1 .okMark1 4#4 0x48#8) = .next t ∧
      exec .reset (withResult .mark1 .okMark1 4#4 0x48#8) = .next u ∧
      exec (.encByte 0x48#8) (withResult .mark1 .okMark1 4#4 0x48#8) = .next v :=
  ⟨by decide, _, _, _, rfl, rfl, rfl⟩

/-- After a marker under the budget 2, and after `ERR_CHANNEL_CLOSED`. -/
theorem witness_DecodingResumesAfterResult :
    MachineInv (budgeted 2 (withResult .mark1 .okMark1 2#4 0x04#8)) ∧
    (budgeted 2 (withResult .mark1 .okMark1 2#4 0x04#8)).dec.resValid = true ∧ isData .d4 = true ∧
    Symbol.d4 ≠ (budgeted 2 (withResult .mark1 .okMark1 2#4 0x04#8)).dec.prev ∧
    2 ≤ (budgeted 2 (withResult .mark1 .okMark1 2#4 0x04#8)).config.decBudget ∧
    MachineInv (withResult .closed .errChannelClosed 2#4 0x04#8) ∧
    (withResult .closed .errChannelClosed 2#4 0x04#8).dec.prev = .closed :=
  ⟨inv_small_budget, by decide, by decide, by decide, by decide, inv_result_waits, by decide⟩

/-- A frame that ends, a sequence that ends in a frame, and one that ends before any transition. -/
theorem witness_DecodeByteCorrespondence :
    MachineInv State.reset ∧ State.reset.dec.resValid = false ∧ State.reset.dec.count = 0#4 ∧
    decodeByte State.reset.config State.reset.dec.prev [.d1, .d1, .d2, .d0, .d1, .mark1, .d1] =
      .ended .okMark1 [1, 0, 2, 0] 6 ∧
    decodeByte State.reset.config State.reset.dec.prev [.d1, .d2] = .unfinished 2 [1, 0] ∧
    decodeByte State.reset.config State.reset.dec.prev [.closed] = .unfinished 0 [] :=
  ⟨inv_reset, by decide, by decide, by decide, by decide, by decide⟩

/-- The smallest budget with counted repeats leaves room for none; the default budget leaves room for any, uncounted. -/
theorem witness_LoopbackReturnsTheBytes :
    MachineInv (countingIdles (budgeted 5 State.reset)) ∧ linkReady (countingIdles (budgeted 5 State.reset)) ∧
    5 ≤ (countingIdles (budgeted 5 State.reset)).config.decBudget ∧
    (∀ f ∈ [((0x48#8 : Byte), [0, 0, 0, 0, 0]), (0x49#8, [0, 0, 0, 0, 0])], f.2.length = 5) ∧
    idlesFit 5 0 [((0x48#8 : Byte), [0, 0, 0, 0, 0]), (0x49#8, [0, 0, 0, 0, 0])] = true ∧
    linkReady State.reset ∧ State.reset.config.idleCounts = false :=
  ⟨inv_link_at_five, by unfold linkReady; decide, by decide, by decide, by decide, by unfold linkReady; decide, by decide⟩

theorem witness_StepKeepsInvariants : MachineInv firstSymbolOut ∧ ∃ t, step firstSymbolOut = .next t :=
  ⟨inv_first_symbol_out, _, rfl⟩

theorem witness_wellFormed_parameters :
    Config.standard.wellFormed = true ∧ { Config.standard with decBudget := 1, idleCounts := true }.wellFormed = true := by
  decide

theorem witness_ReadyAndValidPorts :
    (portOutputs quiet firstSymbolOut).encOutValid = true ∧
    (portOutputs quiet (withResult .d2 .errFraming 2#4 0x04#8)).decOutValid = true := by decide

theorem witness_edges :
    { busyPorts with rst := true }.rst = true ∧ busyPorts.rst = false ∧ State.reset.enc.busy = false ∧
    (withEnc .d1 0x20#8 1#3 true).enc.busy = true ∧ State.reset.dec.resValid = false ∧
    (withResult .mark1 .okMark1 0#4 0x00#8).dec.resValid = true := by decide

theorem witness_OfferedOutputsStayUntilTaken :
    encOutValid quiet firstSymbolOut = true ∧ decOutValid quiet (withResult .mark1 .okMark1 0#4 0x00#8) = true ∧
    ∃ t u, exec (.encByte 0x49#8) firstSymbolOut = .next t ∧
      exec (.decSym 2#3) (withResult .mark1 .okMark1 0#4 0x00#8) = .next u :=
  ⟨by decide, by decide, _, _, rfl, rfl⟩

theorem witness_FirstSymbolOfferedAfterByte :
    State.reset.config.symbolCode.wellFormed = true ∧ busyPorts.rst = false ∧ quiet.rst = false ∧
    State.reset.enc.busy = false ∧ busyPorts.encInValid = true := by decide

theorem witness_QuiescentStateTakesInputs :
    quiescent State.reset = true ∧ quiescent (withFrame .d2 0x04#8 2#4 2#4) = true := by decide

end Sys2Proof.Tests
end

section
namespace Sys2Proof.Machine

@[simp] theorem State.reset_config : State.reset.config = Config.standard := rfl
@[simp] theorem State.reset_enc : State.reset.enc = Encoder.reset := rfl
@[simp] theorem State.reset_dec : State.reset.dec = Decoder.reset := rfl

/-- The code table of R70, row by row; `Mark1` is `111` and `Mark2` is `110` (C1, log entry 6). -/
theorem map_code_standard :
    [Symbol.closed, .d0, .d1, .d2, .d3, .d4, .mark2, .mark1].map (code SymbolCode.standard) =
      [0b000#3, 0b001#3, 0b010#3, 0b011#3, 0b100#3, 0b101#3, 0b110#3, 0b111#3] := rfl

/-- Settles O51: registers and parameters are fixed literals, read off field by field; the codes are the table of R70. -/
theorem resetStateHoldsResetValues : Obligations.ResetStateHoldsResetValues := by
  unfold Obligations.ResetStateHoldsResetValues
  rw [State.reset_enc, State.reset_dec, State.reset_config]
  exact ⟨rfl, rfl, rfl, rfl, rfl, rfl, map_code_standard⟩

end Sys2Proof.Machine
end

section
namespace Sys2Proof.Machine

/-! The reset state and `RESET` (R39, R230). -/

variable {c : Config} {d : Decoder}

/-- What R6 and R9 say of the parameters. -/
theorem Config.wellFormed_iff :
    c.wellFormed = true ↔ 1 ≤ c.decBudget ∧ c.decBudget ≤ 15 ∧ c.symbolCode.wellFormed = true := by
  simp [Config.wellFormed, Config.budgetInRange, and_assoc]

/-- Between frames the invariant of R38 asks only that the last result's slots lie within the budget. -/
theorem decoderInv_of_empty_frame (hb : 1 ≤ c.decBudget) (hacc : d.acc = 0x00#8) (hcount : d.count = 0#4)
    (hslots : d.nslots = 0#4) (hres : d.resNslots.toNat ≤ c.decBudget) : DecoderInv c d where
  nslots_le := by simp [hslots]
  count_lt := by simpa [hcount] using Nat.lt_of_succ_le hb
  empty_frame _ := ⟨hacc, hslots⟩
  idle_free _ := hcount.trans hslots.symm
  res_le := hres
  res_empty _ := hcount

theorem encoderInv_reset : EncoderInv Encoder.reset where
  phase_le := by decide
  idle_phase _ := rfl
  prev_data h := by cases h

theorem decoderInv_reset (hb : 1 ≤ c.decBudget) : DecoderInv c Decoder.reset :=
  decoderInv_of_empty_frame hb rfl rfl rfl (Nat.zero_le _)

/-- Settles O49: the reset registers are those of an idle encoder and of a decoder between frames. -/
theorem invariantsAtReset : Obligations.InvariantsAtReset := by
  unfold Obligations.InvariantsAtReset
  intro c h hc
  exact ⟨hc, encoderInv_reset, decoderInv_reset (Config.wellFormed_iff.mp hc).1⟩

/-- Settles O50: `RESET` is enabled in every state, and its effects are the literals of R39. -/
theorem resetRestoresRegisters : Obligations.ResetRestoresRegisters := by
  unfold Obligations.ResetRestoresRegisters
  intro s
  exact exec_enabled rfl

end Sys2Proof.Machine
end

section
namespace Sys2Proof.Machine

/-! The invariant of R38, item by item: what each register write keeps. -/

variable {c : Config} {e : Encoder} {d : Decoder} {s t : State} {i : Instr} {a : Byte} {n : BitVec 4}

theorem isData_dataSymbol (k : Nat) : isData (dataSymbol k) = true := by
  unfold dataSymbol
  split <;> rfl

theorem isData_emit (v : Value) (p : Symbol) : isData (emit v p) = true := isData_dataSymbol _

theorem encoderInv_acceptByte (b : Byte) : EncoderInv (acceptByte b e) where
  phase_le := by simp [acceptByte]
  idle_phase _ := rfl
  prev_data _ hp := by simp [acceptByte] at hp

/-- A busy encoder goes to the next phase after a data symbol, or is idle again after the marker (R132). -/
theorem encoderInv_handOutSymbol (hc : c.symbolCode.wellFormed = true) (hbusy : e.busy = true) :
    EncoderInv (handOutSymbol c e) := by
  by_cases hp : e.phase < 4#3
  · rw [handOutSymbol_data hc hp]
    exact {
      phase_le := by simp only; bv_omega
      idle_phase := fun h => by simp [hbusy] at h
      prev_data := fun _ _ => isData_emit _ _ }
  · rw [handOutSymbol_marker hp]
    exact ⟨by simp, fun _ => rfl, fun h => by cases h⟩

/-- An idle encoder may hold any channel state (R133). -/
theorem encoderInv_loadEncPrev (h : EncoderInv e) (hidle : e.busy = false) (x : Symbol) :
    EncoderInv (loadEncPrev x e) where
  phase_le := h.phase_le
  idle_phase := h.idle_phase
  prev_data hb := by simp [loadEncPrev, hidle] at hb

theorem decoderInv_finish (hb : 1 ≤ c.decBudget) (hn : n.toNat ≤ c.decBudget) (st : Status) :
    DecoderInv c (finish st a n d) :=
  decoderInv_of_empty_frame hb rfl rfl rfl hn

theorem decoderInv_loadDecPrev (hb : 1 ≤ c.decBudget) (h : DecoderInv c d) (x : Symbol) :
    DecoderInv c (loadDecPrev x d) :=
  decoderInv_of_empty_frame hb rfl rfl rfl h.res_le

theorem DecoderInv.slots_within_budget (h : DecoderInv c d) : d.nslots.toNat ≤ c.decBudget :=
  h.nslots_le.trans h.count_lt.le

theorem decoderInv_flushFrame (hb : 1 ≤ c.decBudget) (h : DecoderInv c d) : DecoderInv c (flushFrame d) := by
  by_cases hcount : d.count = 0#4
  · rwa [flushFrame_between hcount]
  · rw [flushFrame_open hcount]
    exact decoderInv_finish hb h.slots_within_budget _

theorem decoderInv_releaseResult (h : DecoderInv c d) : DecoderInv c (releaseResult d) where
  nslots_le := h.nslots_le
  count_lt := h.count_lt
  empty_frame := h.empty_frame
  idle_free := h.idle_free
  res_le := h.res_le
  res_empty hv := by cases hv

/-- One counted transition keeps the invariant when its slots stay within the counted transitions: below the budget no
counter wraps (R6), and at the budget the frame ends with at most `DEC_BUDGET` slots. -/
theorem decoderInv_countTransition (hb : c.decBudget ≤ 15) (h : DecoderInv c d) (hopen : d.resValid = false)
    (hn : n.toNat ≤ d.count.toNat + 1) (hfree : c.idleCounts = false → d.count + 1#4 = n) :
    DecoderInv c (countTransition c.decBudget a n d) := by
  by_cases hat : d.count.toNat + 1 = c.decBudget
  · rw [countTransition_at hat]
    exact decoderInv_finish (by omega) (by omega) _
  · rw [countTransition_below hat]
    have hlt := h.count_lt
    have hcount : (d.count + 1#4).toNat = d.count.toNat + 1 := by bv_omega
    exact {
      nslots_le := by simpa only [hcount] using hn
      count_lt := by simp only [hcount]; omega
      empty_frame := fun h0 => by simp only at h0; rw [h0] at hcount; simp at hcount
      idle_free := hfree
      res_le := h.res_le
      res_empty := fun hv => by simp [hopen] at hv }

/-- Every outcome of an observation keeps the invariant while no result waits (R171). -/
theorem decoderInv_actOn (hb1 : 1 ≤ c.decBudget) (hb15 : c.decBudget ≤ 15) (h : DecoderInv c d)
    (hopen : d.resValid = false) (o : Observation) : DecoderInv c (actOn c o d) := by
  cases o with
  | idle =>
    cases hi : c.idleCounts with
    | false => simpa [actOn, hi] using h
    | true =>
      simp only [actOn, hi, if_true]
      exact decoderInv_countTransition hb15 h hopen (Nat.le_succ_of_le h.nslots_le) (by simp [hi])
  | channelDown => exact decoderInv_finish hb1 h.slots_within_budget _
  | mark1Detected => exact decoderInv_finish hb1 h.slots_within_budget _
  | mark2Detected => exact decoderInv_finish hb1 h.slots_within_budget _
  | data v =>
    have hslots : (d.nslots + 1#4).toNat ≤ d.count.toNat + 1 :=
      calc (d.nslots + 1#4).toNat ≤ d.nslots.toNat + 1 := Nat.mod_le _ _
        _ ≤ d.count.toNat + 1 := Nat.succ_le_succ h.nslots_le
    exact decoderInv_countTransition hb15 h hopen hslots (fun hi => by rw [h.idle_free hi])

/-- The invariant does not speak of `dec_prev`. -/
theorem DecoderInv.set_prev (h : DecoderInv c d) (x : Symbol) : DecoderInv c { d with prev := x } :=
  ⟨h.nslots_le, h.count_lt, h.empty_frame, h.idle_free, h.res_le, h.res_empty⟩

theorem encoderInv_encEffect (h : MachineInv s) (hen : enabled i s = true) : EncoderInv (encEffect i s) := by
  obtain ⟨hc, he, -⟩ := h
  obtain ⟨-, -, hcode⟩ := Config.wellFormed_iff.mp hc
  cases i with
  | encByte b => exact encoderInv_acceptByte b
  | encSym => exact encoderInv_handOutSymbol hcode hen
  | encSetPrev x => exact encoderInv_loadEncPrev he (by simpa [enabled, encIdle] using hen) _
  | reset => exact encoderInv_reset
  | _ => exact he

theorem decoderInv_decEffect (h : MachineInv s) (hen : enabled i s = true) :
    DecoderInv s.config (decEffect i s) := by
  obtain ⟨hc, -, hd⟩ := h
  obtain ⟨hb1, hb15, -⟩ := Config.wellFormed_iff.mp hc
  cases i with
  | decSym x => exact decoderInv_actOn hb1 hb15 (hd.set_prev _) (by simpa [enabled, decOpen] using hen) _
  | decFlush => exact decoderInv_flushFrame hb1 hd
  | decSetPrev x => exact decoderInv_loadDecPrev hb1 hd _
  | decResult => exact decoderInv_releaseResult hd
  | reset => exact decoderInv_reset hb1
  | _ => exact hd

/-- Every transaction keeps the invariants of R38, whether it fires or waits. -/
theorem machineInv_exec (h : MachineInv s) (hx : exec i s = .next t) : MachineInv t := by
  rcases exec_next hx with ⟨hen, rfl⟩ | ⟨-, rfl⟩
  · exact ⟨h.config, encoderInv_encEffect h hen, decoderInv_decEffect h hen⟩
  · exact ⟨h.config, h.enc, h.dec⟩

/-- Settles O48: every transaction keeps the invariants, and samples and offers touch no register. -/
theorem stepKeepsInvariants : Obligations.StepKeepsInvariants := by
  unfold Obligations.StepKeepsInvariants
  intro s t h hstep
  exact step_keeps MachineInv (fun _ _ _ => machineInv_exec) (fun _ _ h => ⟨h.config, h.enc, h.dec⟩)
    (fun _ _ h => ⟨h.config, h.enc, h.dec⟩) (fun _ _ h => ⟨h.config, h.enc, h.dec⟩) h hstep

end Sys2Proof.Machine
end

section
namespace Sys2Proof.Machine

/-! What no transaction changes: the parameters, an open channel by encoding, a result that waits. -/

variable {c : Config} {e : Encoder} {s t : State} {i : Instr}

theorem exec_config (h : exec i s = .next t) : t.config = s.config := by
  rcases exec_next h with ⟨-, rfl⟩ | ⟨-, rfl⟩ <;> rfl

/-- Settles O32: no transaction, sample or offer changes the parameters. -/
theorem stepKeepsParameters : Obligations.StepKeepsParameters := by
  unfold Obligations.StepKeepsParameters
  intro s t hstep
  exact step_keeps (fun u => u.config = s.config) (fun _ _ _ hu hx => (exec_config hx).trans hu)
    (fun _ _ hu => hu) (fun _ _ hu => hu) (fun _ _ hu => hu) rfl hstep

/-- The encoder hands out data symbols and markers only (R130). -/
theorem encNext_ne_closed (hc : c.symbolCode.wellFormed = true) : encNext c e ≠ .closed := by
  by_cases hp : e.phase < 4#3
  · rw [encNext_data hc hp]
    intro hclosed
    have hdata := isData_emit (topChunk e.shift) e.prev
    rw [hclosed] at hdata
    cases hdata
  · rw [encNext_marker hp]
    cases c.encMarker <;> simp [markerSymbol]

@[simp] theorem handOutSymbol_prev : (handOutSymbol c e).prev = encNext c e := by
  unfold handOutSymbol
  split <;> rfl

/-- Settles O29: a symbol handed out is never `Closed`, and the code of `Closed` loads it. -/
theorem channelStateNotClosedByEncoding : Obligations.ChannelStateNotClosedByEncoding := by
  unfold Obligations.ChannelStateNotClosedByEncoding
  intro i s t hc hprev hx hclosed
  obtain ⟨-, -, hcode⟩ := Config.wellFormed_iff.mp hc
  rcases exec_next hx with ⟨-, rfl⟩ | ⟨-, rfl⟩
  · cases i with
    | encSym => exact absurd (handOutSymbol_prev.symm.trans hclosed) (encNext_ne_closed hcode)
    | encSetPrev x =>
      have hsym : sym s.config.symbolCode x = .closed := hclosed
      exact .inl (by rw [← hsym, code_sym hcode])
    | reset => exact .inr rfl
    | _ => exact absurd hclosed hprev
  · exact absurd hclosed hprev

/-- While a result waits the decoder takes no input (R80, R208). -/
theorem decEffect_while_result_waits (hres : s.dec.resValid = true) (hen : enabled i s = true)
    (hresult : i ≠ .decResult) (hreset : i ≠ .reset) : decEffect i s = s.dec := by
  have hclosed : decOpen s = false := by simp [decOpen, hres]
  cases i with
  | decSym x => exact absurd hen (by simp [enabled, hclosed])
  | decFlush => exact absurd hen (by simp [enabled, hclosed])
  | decSetPrev x => exact absurd hen (by simp [enabled, hclosed])
  | decResult => exact absurd rfl hresult
  | reset => exact absurd rfl hreset
  | _ => rfl

/-- Settles O43: `DEC_RESULT` and `RESET` are enabled and have their effects; every other transaction leaves the decoder. -/
theorem waitingResultIsKept : Obligations.WaitingResultIsKept := by
  unfold Obligations.WaitingResultIsKept
  intro i s t hres hx
  rcases exec_next hx with ⟨hen, rfl⟩ | ⟨hwait, rfl⟩
  · exact ⟨by rintro rfl; rfl, by rintro rfl; rfl, decEffect_while_result_waits hres hen⟩
  · refine ⟨?_, ?_, fun _ _ => rfl⟩
    · rintro rfl; simp [enabled, hres] at hwait
    · rintro rfl; simp [enabled] at hwait

end Sys2Proof.Machine
end

section
namespace Sys2Proof.Machine

/-! The two agents of R24: what a transaction of one agent reads and what it leaves. -/

variable {i j : Instr} {s s' t : State}

/-- A transaction whose enabling condition reads the same in two states fires in both or waits in both. -/
theorem exec_in_both (hen : enabled i s = enabled i s') :
    ∃ t t', exec i s = .next t ∧ exec i s' = .next t' ∧
      ((t = firedState i s ∧ t' = firedState i s') ∨ (t = s.hold i ∧ t' = s'.hold i)) := by
  cases h : enabled i s with
  | true => exact ⟨_, _, exec_enabled h, exec_enabled (hen ▸ h), .inl ⟨rfl, rfl⟩⟩
  | false => exact ⟨_, _, exec_waits h, exec_waits (hen ▸ h), .inr ⟨rfl, rfl⟩⟩

theorem encoderOp_cases (hi : isEncoderOp i = true) :
    (∃ b, i = .encByte b) ∨ i = .encSym ∨ ∃ x, i = .encSetPrev x := by
  cases i with
  | encByte b => exact .inl ⟨b, rfl⟩
  | encSym => exact .inr (.inl rfl)
  | encSetPrev x => exact .inr (.inr ⟨x, rfl⟩)
  | _ => cases hi

theorem decoderOp_cases (hj : isDecoderOp j = true) :
    (∃ x, j = .decSym x) ∨ j = .decFlush ∨ (∃ x, j = .decSetPrev x) ∨ j = .decResult := by
  cases j with
  | decSym x => exact .inl ⟨x, rfl⟩
  | decFlush => exact .inr (.inl rfl)
  | decSetPrev x => exact .inr (.inr (.inl ⟨x, rfl⟩))
  | decResult => exact .inr (.inr (.inr rfl))
  | _ => cases hj

theorem encoderOp_leaves_decoder (hi : isEncoderOp i = true) (s : State) : decEffect i s = s.dec := by
  obtain ⟨b, rfl⟩ | rfl | ⟨x, rfl⟩ := encoderOp_cases hi <;> rfl

theorem decoderOp_leaves_encoder (hj : isDecoderOp j = true) (s : State) : encEffect j s = s.enc := by
  obtain ⟨x, rfl⟩ | rfl | ⟨x, rfl⟩ | rfl := decoderOp_cases hj <;> rfl

/-- All an encoder transaction reads is the encoder and the parameters. -/
theorem encoderOp_reads (hi : isEncoderOp i = true) (hc : s.config = s'.config) (he : s.enc = s'.enc) :
    enabled i s = enabled i s' ∧ encEffect i s = encEffect i s' ∧ returnOf i s = returnOf i s' := by
  obtain ⟨b, rfl⟩ | rfl | ⟨x, rfl⟩ := encoderOp_cases hi
  · simp [enabled, encIdle, encEffect, returnOf, he]
  · simp [enabled, encEffect, returnOf, hc, he]
  · simp [enabled, encIdle, encEffect, returnOf, hc, he]

/-- All a decoder transaction reads is the decoder and the parameters. -/
theorem decoderOp_reads (hj : isDecoderOp j = true) (hc : s.config = s'.config) (hd : s.dec = s'.dec) :
    enabled j s = enabled j s' ∧ decEffect j s = decEffect j s' ∧ returnOf j s = returnOf j s' := by
  obtain ⟨x, rfl⟩ | rfl | ⟨x, rfl⟩ | rfl := decoderOp_cases hj
  · simp [enabled, decOpen, decEffect, returnOf, hc, hd]
  · simp [enabled, decOpen, decEffect, returnOf, hd]
  · simp [enabled, decOpen, decEffect, returnOf, hc, hd]
  · simp [enabled, decEffect, returnOf, hd]

/-- The encoder's half of R24. -/
theorem encoderOp_uses_own_registers (hi : isEncoderOp i = true) (hc : s.config = s'.config) (he : s.enc = s'.enc) :
    ∃ t t', exec i s = .next t ∧ exec i s' = .next t' ∧ t.dec = s.dec ∧ t'.dec = s'.dec ∧ t.enc = t'.enc ∧
      ((∃ out, t.host.trace = .fired i out :: s.host.trace ∧ t'.host.trace = .fired i out :: s'.host.trace) ∨
        (t.host.trace = s.host.trace ∧ t'.host.trace = s'.host.trace)) := by
  obtain ⟨hen, heff, hret⟩ := encoderOp_reads hi hc he
  obtain ⟨t, t', hx, hx', ⟨rfl, rfl⟩ | ⟨rfl, rfl⟩⟩ := exec_in_both hen
  · exact ⟨_, _, hx, hx', encoderOp_leaves_decoder hi s, encoderOp_leaves_decoder hi s', heff,
      .inl ⟨returnOf i s, rfl, by rw [hret]; rfl⟩⟩
  · exact ⟨_, _, hx, hx', rfl, rfl, he, .inr ⟨rfl, rfl⟩⟩

/-- The decoder's half of R24. -/
theorem decoderOp_uses_own_registers (hj : isDecoderOp j = true) (hc : s.config = s'.config) (hd : s.dec = s'.dec) :
    ∃ t t', exec j s = .next t ∧ exec j s' = .next t' ∧ t.enc = s.enc ∧ t'.enc = s'.enc ∧ t.dec = t'.dec ∧
      ((∃ out, t.host.trace = .fired j out :: s.host.trace ∧ t'.host.trace = .fired j out :: s'.host.trace) ∨
        (t.host.trace = s.host.trace ∧ t'.host.trace = s'.host.trace)) := by
  obtain ⟨hen, heff, hret⟩ := decoderOp_reads hj hc hd
  obtain ⟨t, t', hx, hx', ⟨rfl, rfl⟩ | ⟨rfl, rfl⟩⟩ := exec_in_both hen
  · exact ⟨_, _, hx, hx', decoderOp_leaves_encoder hj s, decoderOp_leaves_encoder hj s', heff,
      .inl ⟨returnOf j s, rfl, by rw [hret]; rfl⟩⟩
  · exact ⟨_, _, hx, hx', rfl, rfl, hd, .inr ⟨rfl, rfl⟩⟩

/-- Settles O30: the two halves of R24. -/
theorem agentsUseOwnRegistersOnly : Obligations.AgentsUseOwnRegistersOnly := by
  unfold Obligations.AgentsUseOwnRegistersOnly
  intro i s s' hc
  exact ⟨fun hi => encoderOp_uses_own_registers hi hc, fun hi => decoderOp_uses_own_registers hi hc⟩

/-- Settles O31 from R24: each agent finds its own registers and the parameters as they were before the other one moved. -/
theorem agentsCommute : Obligations.AgentsCommute := by
  unfold Obligations.AgentsCommute
  intro i j s hi hj
  obtain ⟨a, -, hia, -, had, -⟩ := encoderOp_uses_own_registers hi (Eq.refl s.config) rfl
  have hac := exec_config hia
  obtain ⟨a', b, hja', hjb, ha'e, hbe, hbd, -⟩ := decoderOp_uses_own_registers hj hac.symm had.symm
  have ha'c := exec_config hja'
  obtain ⟨a₂, b', hia₂, hib', -, hb'd, hb'e, -⟩ := encoderOp_uses_own_registers hi ha'c.symm ha'e.symm
  obtain rfl : a = a₂ := Host.Outcome.next.inj (hia.symm.trans hia₂)
  have hconfig : b.config = b'.config :=
    calc b.config = s.config := (exec_config hjb).trans hac
      _ = b'.config := ((exec_config hib').trans ha'c).symm
  exact ⟨a, b, a', b', hia, hjb, hja', hib', hbe.trans hb'e, hbd.symm.trans hb'd.symm, hconfig⟩

end Sys2Proof.Machine
end

section
namespace Sys2Proof.Machine

/-! The accumulator as a number (R30, R55): each value shifted in is one digit of base 4, and four digits fill a byte. -/

variable {c : Config} {d : Decoder} {x : Symbol}

theorem append_value_toNat {n : Nat} (b : BitVec n) (v : Value) : (b ++ v).toNat = b.toNat * 4 + v.toNat := by
  rw [BitVec.toNat_append, ← Nat.shiftLeft_add_eq_or_of_lt v.isLt, Nat.shiftLeft_eq]

theorem shiftIn_toNat (acc : Byte) (v : Value) : (shiftIn acc v).toNat = (acc.toNat * 4 + v.toNat) % 256 := by
  have hv := v.isLt
  have hshift : (acc <<< 2).toNat = (acc.toNat % 64) <<< 2 := by
    rw [BitVec.toNat_shiftLeft, Nat.shiftLeft_eq, Nat.shiftLeft_eq]
    omega
  have hvalue : (v.zeroExtend 8).toNat = v.toNat := BitVec.toNat_setWidth_of_le (by decide)
  rw [shiftIn, BitVec.toNat_or, hshift, hvalue, ← Nat.shiftLeft_add_eq_or_of_lt hv, Nat.shiftLeft_eq]
  omega

/-- Four values fill the accumulator in the order of the byte, whatever it held before. -/
theorem shiftIn_four (acc : Byte) (v₁ v₂ v₃ v₄ : Value) :
    shiftIn (shiftIn (shiftIn (shiftIn acc v₁) v₂) v₃) v₄ = v₁ ++ v₂ ++ v₃ ++ v₄ := by
  apply BitVec.eq_of_toNat_eq
  simp only [shiftIn_toNat, append_value_toNat]
  omega

theorem packValues_last_four (before : List Value) (v₁ v₂ v₃ v₄ : Value) :
    packValues (before ++ [v₁, v₂, v₃, v₄]) = v₁ ++ v₂ ++ v₃ ++ v₄ := by
  rw [packValues, List.foldl_append]
  exact shiftIn_four _ v₁ v₂ v₃ v₄

/-- The frame starts with an empty accumulator, so leading zeros do not count. -/
theorem packValues_zero_cons (vs : List Value) : packValues (0#2 :: vs) = packValues vs := rfl

theorem packValues_three (v₁ v₂ v₃ : Value) : packValues [v₁, v₂, v₃] = 0b00#2 ++ v₁ ++ v₂ ++ v₃ := by
  rw [← packValues_zero_cons]
  exact packValues_last_four [] 0#2 v₁ v₂ v₃

theorem packValues_two (v₁ v₂ : Value) : packValues [v₁, v₂] = 0b0000#4 ++ v₁ ++ v₂ := by
  rw [← packValues_zero_cons]
  exact packValues_three 0#2 v₁ v₂

theorem packValues_one (v : Value) : packValues [v] = 0b000000#6 ++ v := by
  rw [← packValues_zero_cons]
  exact packValues_two 0#2 v

/-- A data outcome is a counted transition that shifts its value in and counts a slot (R171). -/
theorem consumeSymbol_data (hc : c.symbolCode.wellFormed = true) (hx : isData x = true) (hne : x ≠ d.prev) :
    consumeSymbol c x d =
      countTransition c.decBudget (shiftIn d.acc (dval x d.prev)) (d.nslots + 1#4) { d with prev := x } := by
  rw [consumeSymbol, observeTransition_data hc hx hne]
  rfl

/-- The byte of a counted transition goes to the result where the count reaches the budget, else to the accumulator. -/
theorem countTransition_byte (budget : Nat) (a : Byte) (n : BitVec 4) (d : Decoder) :
    (if d.count.toNat + 1 = budget then (countTransition budget a n d).resByte
      else (countTransition budget a n d).acc) = a := by
  split
  case isTrue hat => rw [countTransition_at hat, finish_resByte]
  case isFalse hbelow => rw [countTransition_below hbelow]

/-- While no result waits, `DEC_SYM` consumes its symbol. -/
theorem exec_decSym_open {s : State} (hc : s.config.symbolCode.wellFormed = true) (hopen : s.dec.resValid = false) :
    ∃ t, exec (.decSym (code s.config.symbolCode x)) s = .next t ∧ t.dec = consumeSymbol s.config x s.dec :=
  ⟨_, exec_enabled (by simp [enabled, decOpen, hopen]), by simp [firedState, decEffect, sym_code hc]⟩

/-- Settles O44: the value shifted in is the accumulator's or the result's, and four digits of base 4 fill the byte. -/
theorem accumulatorKeepsLastFour : Obligations.AccumulatorKeepsLastFour := by
  unfold Obligations.AccumulatorKeepsLastFour
  refine ⟨fun s x hc hopen hx hne => ?_, fun acc v => ?_, packValues_one, packValues_two, packValues_three,
    packValues_last_four⟩
  · obtain ⟨t, hexec, hdec⟩ := exec_decSym_open (x := x) hc hopen
    refine ⟨t, hexec, ?_⟩
    rw [hdec, consumeSymbol_data hc hx hne]
    exact countTransition_byte _ _ _ { s.dec with prev := x }
  · rw [← shiftIn_toNat, BitVec.ofNat_toNat, BitVec.setWidth_eq]

end Sys2Proof.Machine
end

section
namespace Sys2Proof.Machine

/-! The probes (R60): always enabled, no register written, an answer that reads the parameters alone. -/

variable {i : Instr}

theorem probe_cases (hi : isProbe i = true) :
    (∃ p, i = .romOffset p) ∨ (∃ v p, i = .romEmit v p) ∨ (∃ x p, i = .observe x p) ∨ ∃ x, i = .fmdClassify x := by
  cases i with
  | romOffset p => exact .inl ⟨p, rfl⟩
  | romEmit v p => exact .inr (.inl ⟨v, p, rfl⟩)
  | observe x p => exact .inr (.inr (.inl ⟨x, p, rfl⟩))
  | fmdClassify x => exact .inr (.inr (.inr ⟨x, rfl⟩))
  | _ => cases hi

/-- A probe fires in every state and leaves the registers of both agents. -/
theorem exec_probe (hi : isProbe i = true) (s : State) :
    exec i s = .next (afterFiring i (returnOf i s) s.enc s.dec s) := by
  obtain ⟨p, rfl⟩ | ⟨v, p, rfl⟩ | ⟨x, p, rfl⟩ | ⟨x, rfl⟩ := probe_cases hi <;> exact exec_enabled rfl

/-- What a probe returns is a value of the parameters. -/
theorem probe_returns (hi : isProbe i = true) (s : State) :
    ∃ out, ∀ s' : State, s'.config = s.config → returnOf i s' = some out := by
  obtain ⟨p, rfl⟩ | ⟨v, p, rfl⟩ | ⟨x, p, rfl⟩ | ⟨x, rfl⟩ := probe_cases hi <;>
    exact ⟨_, fun s' hc => by rw [returnOf, hc]⟩

/-- Settles O20: in both states the probe fires with the one value that the shared parameters give. -/
theorem probesHaveNoSideEffect : Obligations.ProbesHaveNoSideEffect := by
  unfold Obligations.ProbesHaveNoSideEffect
  intro i s s' hi hc
  obtain ⟨out, hout⟩ := probe_returns hi s
  exact ⟨out, by rw [exec_probe hi, hout s rfl], by rw [exec_probe hi, hout s' hc.symm]⟩

end Sys2Proof.Machine
end

section
namespace Sys2Proof

/-! The transaction word by its fields (R79 to R81): `decode` accepts exactly the words that `encode` writes, which are those
that the opcode table admits. -/

variable {t : Word} {i j : Instr} {b : Bool} {op : BitVec 4}

theorem word_of_byte_fields (hop : opField t = op) (hz : t.extractLsb' 8 4 = 0#4) : op ++ 0#4 ++ byteField t = t := by
  rw [← hop, ← hz]
  simp only [opField, byteField, BitVec.extractLsb'_append_extractLsb'_eq_extractLsb', BitVec.extractLsb'_eq_self]

theorem word_of_op (hop : opField t = op) (hz : t.extractLsb' 0 12 = 0#12) : op ++ 0#12 = t := by
  rw [← hop, ← hz]
  simp only [opField, BitVec.extractLsb'_append_extractLsb'_eq_extractLsb', BitVec.extractLsb'_eq_self]

theorem word_of_symbol_fields (hop : opField t = op) (hz : t.extractLsb' 3 9 = 0#9) : op ++ 0#9 ++ symField t = t := by
  rw [← hop, ← hz]
  simp only [opField, symField, BitVec.extractLsb'_append_extractLsb'_eq_extractLsb', BitVec.extractLsb'_eq_self]

theorem word_of_emit_fields (hop : opField t = op) (hz : t.extractLsb' 3 1 = 0#1 ∧ t.extractLsb' 6 6 = 0#6) :
    op ++ 0#6 ++ valueField t ++ 0#1 ++ symField t = t := by
  rw [← hop, ← hz.1, ← hz.2]
  simp only [opField, valueField, symField, BitVec.extractLsb'_append_extractLsb'_eq_extractLsb',
    BitVec.extractLsb'_eq_self]

theorem word_of_observe_fields (hop : opField t = op) (hz : t.extractLsb' 3 1 = 0#1 ∧ t.extractLsb' 7 5 = 0#5) :
    op ++ 0#5 ++ incomingField t ++ 0#1 ++ symField t = t := by
  rw [← hop, ← hz.1, ← hz.2]
  simp only [opField, incomingField, symField, BitVec.extractLsb'_append_extractLsb'_eq_extractLsb',
    BitVec.extractLsb'_eq_self]

theorem acceptIf_eq_ok : acceptIf b j = .ok i ↔ b = true ∧ j = i := by
  cases b <;> simp [acceptIf]

theorem acceptIf_ne_reservedOp : acceptIf b j ≠ .error .reservedOp := by
  cases b <;> simp [acceptIf]

/-- The word of each transaction decodes to it: its operands have at most 8 bits. -/
theorem decode_encode (i : Instr) : decode (encode i) = .ok i := by
  cases i with
  | encByte b => revert b; decide
  | encSetPrev s => revert s; decide
  | decSym s => revert s; decide
  | decSetPrev s => revert s; decide
  | romOffset p => revert p; decide
  | romEmit v p => revert v p; decide
  | observe i p => revert i p; decide
  | fmdClassify s => revert s; decide
  | encSym => rfl
  | decFlush => rfl
  | decResult => rfl
  | reset => rfl

/-- The op and the zeros that `decode` checks are those that `encode` writes, and the operands are fields of the word. -/
theorem encode_of_decode (h : decode t = .ok i) : encode i = t := by
  unfold decode at h
  split at h
  case h_13 => cases h
  all_goals
    obtain ⟨hz, rfl⟩ := acceptIf_eq_ok.mp h
    simp only [Bool.and_eq_true, beq_iff_eq] at hz
  case h_1 hop => exact word_of_byte_fields hop hz
  case h_2 hop => exact word_of_op hop hz
  case h_3 hop => exact word_of_symbol_fields hop hz
  case h_4 hop => exact word_of_symbol_fields hop hz
  case h_5 hop => exact word_of_op hop hz
  case h_6 hop => exact word_of_symbol_fields hop hz
  case h_7 hop => exact word_of_op hop hz
  case h_8 hop => exact word_of_symbol_fields hop hz
  case h_9 hop => exact word_of_emit_fields hop hz
  case h_10 hop => exact word_of_observe_fields hop hz
  case h_11 hop => exact word_of_symbol_fields hop hz
  case h_12 hop => exact word_of_op hop hz

/-- Settles O1: what decodes is the written word of its transaction, and every written word decodes. -/
theorem decodeInvertsEncode : Obligations.DecodeInvertsEncode := by
  unfold Obligations.DecodeInvertsEncode
  intro t i
  constructor
  · exact encode_of_decode
  · rintro rfl
    exact decode_encode i

/-- The word of a transaction is admitted by the row of its own mnemonic, and by no other (`Laws.OwnRow`). -/
theorem ownRow (i : Instr) : Laws.OwnRow.Statement i := by
  cases i with
  | encByte b => exact Laws.OwnRow.encByte b
  | encSym => exact Laws.OwnRow.encSym
  | encSetPrev s => exact Laws.OwnRow.encSetPrev s
  | decSym s => exact Laws.OwnRow.decSym s
  | decFlush => exact Laws.OwnRow.decFlush
  | decSetPrev s => exact Laws.OwnRow.decSetPrev s
  | decResult => exact Laws.OwnRow.decResult
  | romOffset p => exact Laws.OwnRow.romOffset p
  | romEmit v p => exact Laws.OwnRow.romEmit v p
  | observe i p => exact Laws.OwnRow.observe i p
  | fmdClassify s => exact Laws.OwnRow.fmdClassify s
  | reset => exact Laws.OwnRow.reset

theorem row_admits_encode (i : Instr) : ∃ r ∈ opcodeTable, r.admits (encode i) = true ∧ r.mnemonic = i.mnemonic := by
  have hmem : i.mnemonic ∈ (opcodeTable.filter fun r => r.admits (encode i)).map OpcodeRow.mnemonic := by
    rw [ownRow i]
    exact List.mem_singleton_self _
  obtain ⟨r, hr, hname⟩ := List.mem_map.mp hmem
  obtain ⟨htable, hadmits⟩ := List.mem_filter.mp hr
  exact ⟨r, htable, hadmits, hname⟩

/-- Where a row's mask has ones only, a word it admits has the bits of the row's match value. -/
theorem OpcodeRow.admits_extract {r : OpcodeRow} (h : r.admits t = true) (start len : Nat)
    (hmask : r.mask.extractLsb' start len = BitVec.allOnes len) :
    t.extractLsb' start len = r.value.extractLsb' start len := by
  rw [← beq_iff_eq.mp h, BitVec.extractLsb'_and, hmask, BitVec.and_allOnes]

theorem decode_of_row_admits {r : OpcodeRow} (hr : r ∈ opcodeTable) (h : r.admits t = true) :
    ∃ i, decode t = .ok i ∧ i.mnemonic = r.mnemonic := by
  have hbits := r.admits_extract h
  simp only [opcodeTable, List.mem_cons, List.not_mem_nil, or_false] at hr
  unfold decode
  rcases hr with rfl | rfl | rfl | rfl | rfl | rfl | rfl | rfl | rfl | rfl | rfl | rfl
  · rw [opField, hbits 12 4 rfl, hbits 8 4 rfl]; exact ⟨_, rfl, rfl⟩
  · rw [opField, hbits 12 4 rfl, hbits 0 12 rfl]; exact ⟨_, rfl, rfl⟩
  · rw [opField, hbits 12 4 rfl, hbits 3 9 rfl]; exact ⟨_, rfl, rfl⟩
  · rw [opField, hbits 12 4 rfl, hbits 3 9 rfl]; exact ⟨_, rfl, rfl⟩
  · rw [opField, hbits 12 4 rfl, hbits 0 12 rfl]; exact ⟨_, rfl, rfl⟩
  · rw [opField, hbits 12 4 rfl, hbits 3 9 rfl]; exact ⟨_, rfl, rfl⟩
  · rw [opField, hbits 12 4 rfl, hbits 0 12 rfl]; exact ⟨_, rfl, rfl⟩
  · rw [opField, hbits 12 4 rfl, hbits 3 9 rfl]; exact ⟨_, rfl, rfl⟩
  · rw [opField, hbits 12 4 rfl, hbits 3 1 rfl, hbits 6 6 rfl]; exact ⟨_, rfl, rfl⟩
  · rw [opField, hbits 12 4 rfl, hbits 3 1 rfl, hbits 7 5 rfl]; exact ⟨_, rfl, rfl⟩
  · rw [opField, hbits 12 4 rfl, hbits 3 9 rfl]; exact ⟨_, rfl, rfl⟩
  · rw [opField, hbits 12 4 rfl, hbits 0 12 rfl]; exact ⟨_, rfl, rfl⟩

/-- Settles O2: a row's mask leaves exactly the operands of its transaction open. -/
theorem decodeFollowsOpcodeTable : Obligations.DecodeFollowsOpcodeTable := by
  unfold Obligations.DecodeFollowsOpcodeTable
  intro t
  refine ⟨fun r hr h => decode_of_row_admits hr h, fun i h => ?_⟩
  obtain rfl := encode_of_decode h
  exact row_admits_encode i

/-- Settles O3: the words are those that `encode` writes. -/
theorem writtenWordsDecode : Obligations.WrittenWordsDecode := by
  unfold Obligations.WrittenWordsDecode
  exact ⟨decode_encode (.encByte 0x48#8), decode_encode .encSym, decode_encode (.encSetPrev 0b100#3),
    decode_encode (.decSym 0b010#3), decode_encode .decFlush, decode_encode (.decSetPrev 0b111#3),
    decode_encode .decResult, decode_encode (.romOffset 0b101#3), decode_encode (.romEmit 0b10#2 0b100#3),
    decode_encode (.observe 0b001#3 0b100#3), decode_encode (.fmdClassify 0b101#3), decode_encode .reset⟩

end Sys2Proof
end

section
namespace Sys2Proof.Machine

/-! What a step takes up when no held offer is enabled (R79, R81, R87), and which held offer it takes up otherwise. -/

variable {t : Word} {i j : Instr} {s : State} {rest : List HostInput} {p : PortInputs}

/-- The reserved ops of R81 are those that no row of the opcode table has. -/
theorem decode_eq_reservedOp_iff : decode t = .error .reservedOp ↔ isReservedOp t = true := by
  unfold decode isReservedOp
  generalize opField t = op
  split
  case h_13 => rw [eq_self, true_iff]; revert op; decide
  all_goals simp [acceptIf_ne_reservedOp]

theorem no_row_admits_reserved (h : decode t = .error .reservedOp) : ∀ r ∈ opcodeTable, r.admits t = false := by
  intro r hr
  by_contra hadmits
  obtain ⟨i, hi, -⟩ := decode_of_row_admits hr ((Bool.not_eq_false _).mp hadmits)
  rw [h] at hi
  cases hi

theorem decode_illFormed (hop : isReservedOp t = false) (hrows : ∀ r ∈ opcodeTable, r.admits t = false) :
    decode t = .error .illFormed := by
  cases h : decode t with
  | ok i =>
    obtain rfl := encode_of_decode h
    obtain ⟨r, hr, hadmits, -⟩ := row_admits_encode i
    rw [hrows r hr] at hadmits
    cases hadmits
  | error e =>
    cases e with
    | reservedOp => rw [decode_eq_reservedOp_iff.mp h] at hop; cases hop
    | illFormed => rfl

theorem firstEnabled_eq_none {l : List Instr} (h : ∀ i ∈ l, enabled i s = false) : firstEnabled s l = none := by
  cases hf : firstEnabled s l with
  | none => rfl
  | some j =>
    obtain ⟨hen, hmem⟩ := firstEnabled_some hf
    rw [h j hmem] at hen
    cases hen

section
variable (hwait : ∀ i ∈ s.host.waiting, enabled i s = false)
include hwait

theorem step_word_accepted (hprog : s.host.program = .word t :: rest) (h : decode t = .ok i) :
    step s = exec i (s.offer rest) := by
  simp only [step, fetch, firstEnabled_eq_none hwait, hprog, takeWord, h]

theorem step_word_refused {e : DecodeRefusal} (hprog : s.host.program = .word t :: rest) (h : decode t = .error e) :
    step s = .refused (refusalOf t e) := by
  simp only [step, fetch, firstEnabled_eq_none hwait, hprog, takeWord, h]

theorem step_edge (hprog : s.host.program = .edge p :: rest) : step s = clockEdge p (s.offer rest) := by
  simp only [step, fetch, firstEnabled_eq_none hwait, hprog]

end

/-- Settles O4: a word of a reserved op is refused as such, a word that no row admits as ill-formed. -/
theorem reservedAndIllFormedWordsRefused : Obligations.ReservedAndIllFormedWordsRefused := by
  unfold Obligations.ReservedAndIllFormedWordsRefused
  intro t s rest hwait hprog
  constructor
  · intro hop
    have h := decode_eq_reservedOp_iff.mpr hop
    exact ⟨no_row_admits_reserved h, h, step_word_refused hwait hprog h⟩
  · intro hop hrows
    have h := decode_illFormed hop hrows
    exact ⟨h, step_word_refused hwait hprog h⟩

/-- Settles O5: no held offer comes first, so the word is taken up. -/
theorem stepRunsOfferedTransaction : Obligations.StepRunsOfferedTransaction := by
  unfold Obligations.StepRunsOfferedTransaction
  intro t i s rest hwait hprog h
  exact step_word_accepted hwait hprog h

/-- Settles O7: no held offer comes first, so the edge is taken up. -/
theorem stepRunsClockEdge : Obligations.StepRunsClockEdge := by
  unfold Obligations.StepRunsClockEdge
  intro p s rest hwait hprog
  exact step_edge hwait hprog

/-- Where a held offer is enabled, one is taken up. -/
theorem exists_firstEnabled {l : List Instr} (hi : i ∈ l) (hen : enabled i s = true) : ∃ j, firstEnabled s l = some j := by
  cases hf : firstEnabled s l with
  | some j => exact ⟨j, rfl⟩
  | none => rw [firstEnabled_none hf i hi] at hen; cases hen

/-- An offer of lower rank than the one taken up is not enabled. -/
theorem firstEnabled_lower_rank_waits {l : List Instr} (hj : firstEnabled s l = some j) {k : Instr} (hk : k ∈ l)
    (hrank : portRank k < portRank j) : enabled k s = false := by
  obtain ⟨older, newer, rfl, -, hold, hnew⟩ := firstEnabled_split hj
  by_contra hen
  rw [Bool.not_eq_false] at hen
  rcases List.mem_append.mp hk with hk | hk
  · exact absurd (hold k hk hen) (by omega)
  · rcases List.mem_cons.mp hk with rfl | hk
    · exact lt_irrefl _ hrank
    · exact absurd (hnew k hk hen) (by omega)

/-- `RESET` is always enabled and alone in the lowest rank. -/
theorem firstEnabled_reset {l : List Instr} (hj : firstEnabled s l = some j) (hr : .reset ∈ l) : j = .reset := by
  have hrank : portRank j ≤ 0 := by
    by_contra hlt
    cases firstEnabled_lower_rank_waits hj hr (Nat.lt_of_not_le hlt)
  cases j with
  | reset => rfl
  | _ => cases hrank

/-- Settles O6: the offer taken up has the lowest rank of the enabled ones, and the ranks are in the order of one edge. -/
theorem stepFiresHeldOffer : Obligations.StepFiresHeldOffer := by
  unfold Obligations.StepFiresHeldOffer
  intro i s hi hen
  obtain ⟨j, hj⟩ := exists_firstEnabled hi hen
  obtain ⟨older, newer, hsplit, herase, hold, hnew⟩ := firstEnabled_split hj
  have hlower {k} (hk : k ∈ s.host.waiting) := firstEnabled_lower_rank_waits hj hk
  refine ⟨j, older, newer, hsplit, (firstEnabled_some hj).1, hold, hnew, firstEnabled_reset hj, ?_, ?_, ?_, ?_⟩
  · rintro b rfl x hx
    exact hlower hx (by simp [portRank])
  · rintro rfl x hx
    exact hlower hx (by simp [portRank])
  · rintro y rfl
    exact ⟨fun hf => hlower hf (by simp [portRank]), fun x hx => hlower hx (by simp [portRank])⟩
  · simp only [step, fetch, hj, State.release, herase]

end Sys2Proof.Machine
end

section
namespace Sys2Proof.Machine

/-! Transactions that wait, and the states in which they do not (R80, R82). -/

variable {s : State}

theorem encIdle_iff : encIdle s = true ↔ s.enc.busy = false := by simp [encIdle]
theorem encIdle_eq_false_iff : encIdle s = false ↔ s.enc.busy = true := by simp [encIdle]
theorem decOpen_iff : decOpen s = true ↔ s.dec.resValid = false := by simp [decOpen]
theorem decOpen_eq_false_iff : decOpen s = false ↔ s.dec.resValid = true := by simp [decOpen]

theorem encSym_waits (h : s.enc.busy = false) : exec .encSym s = .next (afterWaiting .encSym s) :=
  exec_waits (i := .encSym) h

theorem decResult_waits (h : s.dec.resValid = false) : exec .decResult s = .next (afterWaiting .decResult s) :=
  exec_waits (i := .decResult) h

/-- Settles O9: where the enabling condition of R80 does not hold, the offer is held and nothing else changes. -/
theorem disabledTransactionWaits : Obligations.DisabledTransactionWaits := by
  unfold Obligations.DisabledTransactionWaits
  intro s
  refine ⟨fun hbusy => ?_, encSym_waits, fun hres => ?_, decResult_waits⟩
  · have hidle := encIdle_eq_false_iff.mpr hbusy
    exact ⟨fun b => exec_waits (i := .encByte b) hidle, fun x => exec_waits (i := .encSetPrev x) hidle⟩
  · have hopen := decOpen_eq_false_iff.mpr hres
    exact ⟨fun x => exec_waits (i := .decSym x) hopen, exec_waits (i := .decFlush) hopen,
      fun x => exec_waits (i := .decSetPrev x) hopen⟩

/-- Settles O59: the inputs are enabled and return nothing; the outputs are not enabled. -/
theorem quiescentStateTakesInputs : Obligations.QuiescentStateTakesInputs := by
  unfold Obligations.QuiescentStateTakesInputs
  intro s hq
  obtain ⟨hidle, hopen⟩ : encIdle s = true ∧ decOpen s = true := Bool.and_eq_true_iff.mp hq
  exact ⟨fun b => ⟨_, exec_enabled (i := .encByte b) hidle, rfl⟩,
    fun x => ⟨_, exec_enabled (i := .encSetPrev x) hidle, rfl⟩, fun x => ⟨_, exec_enabled (i := .decSym x) hopen, rfl⟩,
    ⟨_, exec_enabled (i := .decFlush) hopen, rfl⟩, fun x => ⟨_, exec_enabled (i := .decSetPrev x) hopen, rfl⟩,
    encSym_waits (encIdle_iff.mp hidle), decResult_waits (decOpen_iff.mp hopen)⟩

/-- Settles O40: `DEC_RESULT` fires, and its word is made of the result registers. -/
theorem decResultReturnsWord : Obligations.DecResultReturnsWord := by
  unfold Obligations.DecResultReturnsWord
  intro s hres
  exact exec_enabled (i := .decResult) hres

end Sys2Proof.Machine
end

section
namespace Sys2Proof.Machine

/-! What lifts a wait (R82): the transaction that turns `enc_busy` or `dec_res_valid` over. -/

variable {i j : Instr} {s t : State} {c : Config} {e : Encoder} {d : Decoder} {x : Symbol}

theorem enabled_hold : enabled i (s.hold j) = enabled i s := by
  cases i <;> rfl

/-- What lifts a wait has fired: an offer that is held changes no enabling condition. -/
theorem fired_of_lifts (hwait : enabled i s = false) (hx : exec j s = .next t) (hlifted : enabled i t = true) :
    enabled j s = true ∧ t = firedState j s := by
  rcases exec_next hx with hfired | ⟨-, rfl⟩
  · exact hfired
  · rw [enabled_hold, hwait] at hlifted
    cases hlifted

/-- Only an accepted byte makes the encoder busy. -/
theorem encByte_of_sets_busy (hidle : s.enc.busy = false) (hen : enabled j s = true)
    (hset : (encEffect j s).busy = true) : ∃ b, j = .encByte b := by
  cases j with
  | encByte b => exact ⟨b, rfl⟩
  | encSym => exact absurd hen (Bool.eq_false_iff.mp hidle)
  | reset => cases hset
  | _ => exact absurd hset (Bool.eq_false_iff.mp hidle)

/-- Before the marker the encoder stays busy (R132). -/
theorem handOutSymbol_busy_data (hp : e.phase < 4#3) : (handOutSymbol c e).busy = e.busy := by
  simp only [handOutSymbol, if_pos hp]

/-- Only the marker and `RESET` make the encoder idle. -/
theorem marker_or_reset_of_clears_busy (hinv : EncoderInv s.enc) (hbusy : encIdle s = false)
    (hclear : encIdle (firedState j s) = true) : (j = .encSym ∧ s.enc.phase = 4#3) ∨ j = .reset := by
  rw [encIdle_eq_false_iff] at hbusy
  have hne : (encEffect j s).busy ≠ s.enc.busy := by
    rw [hbusy]
    exact Bool.eq_false_iff.mp (encIdle_iff.mp hclear)
  cases j with
  | encByte b => exact absurd hbusy.symm hne
  | encSym =>
    have hphase : ¬s.enc.phase < 4#3 := fun hp => hne (handOutSymbol_busy_data hp)
    have hle := hinv.phase_le
    exact .inl ⟨rfl, by bv_omega⟩
  | reset => exact .inr rfl
  | _ => exact absurd rfl hne

/-- Only a decoder input that ends a frame makes a result wait. -/
theorem decSym_or_flush_of_sets_resValid (hopen : s.dec.resValid = false) (hset : (decEffect j s).resValid = true) :
    (∃ x, j = .decSym x) ∨ j = .decFlush := by
  cases j with
  | decSym x => exact .inl ⟨x, rfl⟩
  | decFlush => exact .inr rfl
  | decResult => cases hset
  | reset => cases hset
  | _ => exact absurd hset (Bool.eq_false_iff.mp hopen)

/-- Only `DEC_RESULT` and `RESET` take a waiting result away. -/
theorem result_or_reset_of_clears_resValid (hres : decOpen s = false) (hen : enabled j s = true)
    (hclear : decOpen (firedState j s) = true) : j = .decResult ∨ j = .reset := by
  by_contra hother
  obtain ⟨hresult, hreset⟩ := not_or.mp hother
  have hkept := decEffect_while_result_waits (decOpen_eq_false_iff.mp hres) hen hresult hreset
  have hopen : decOpen (firedState j s) = decOpen s := congrArg (fun d : Decoder => !d.resValid) hkept
  rw [hopen, hres] at hclear
  cases hclear

/-- A marker or `Closed` that is no repeat ends the frame (R171). -/
theorem consumeSymbol_ends_at_nonData (hx : isData x = false) (hne : x ≠ d.prev) :
    (consumeSymbol c x d).resValid = true := by
  cases x with
  | closed => simp [consumeSymbol, observeTransition, hne, actOn]
  | mark1 => simp [consumeSymbol, observeTransition, hne, actOn]
  | mark2 => simp [consumeSymbol, observeTransition, hne, actOn]
  | _ => cases hx

/-- A counted repeat is a counted transition that brings no value (R171). -/
theorem consumeSymbol_counted_idle (hidle : c.idleCounts = true) :
    consumeSymbol c d.prev d = countTransition c.decBudget d.acc d.nslots d := by
  simp [consumeSymbol, observeTransition, actOn, hidle]

/-- A counted transition at the budget ends the frame (R171, R202). -/
theorem consumeSymbol_ends_at_budget (hc : c.symbolCode.wellFormed = true) (hat : d.count.toNat + 1 = c.decBudget)
    (hx : (isData x = true ∧ x ≠ d.prev) ∨ (x = d.prev ∧ c.idleCounts = true)) :
    (consumeSymbol c x d).resValid = true := by
  rcases hx with ⟨hdata, hne⟩ | ⟨rfl, hidle⟩
  · rw [consumeSymbol_data hc hdata hne, countTransition_at (d := { d with prev := x }) hat, finish_resValid]
  · rw [consumeSymbol_counted_idle hidle, countTransition_at hat, finish_resValid]

/-- A symbol that ends the frame makes its result wait. -/
theorem exec_decSym_lifts_decResult (hc : s.config.symbolCode.wellFormed = true) (hopen : s.dec.resValid = false)
    (hends : (consumeSymbol s.config x s.dec).resValid = true) :
    ∃ t, exec (.decSym (code s.config.symbolCode x)) s = .next t ∧ enabled .decResult t = true := by
  obtain ⟨t, hx, hdec⟩ := exec_decSym_open (x := x) hc hopen
  exact ⟨t, hx, (congrArg Decoder.resValid hdec).trans hends⟩

/-- Settles O10: a wait is lifted by what turns its register over, and only by that. -/
theorem waitsAreLiftedByTheirAgent : Obligations.WaitsAreLiftedByTheirAgent := by
  unfold Obligations.WaitsAreLiftedByTheirAgent
  constructor
  · intro i j s t hinv hwait hx hlifted
    obtain ⟨hen, rfl⟩ := fired_of_lifts hwait hx hlifted
    cases i with
    | encSym => exact encByte_of_sets_busy hwait hen hlifted
    | encByte _ | encSetPrev _ => exact marker_or_reset_of_clears_busy hinv.enc hwait hlifted
    | decResult => exact decSym_or_flush_of_sets_resValid hwait hlifted
    | decSym _ | decFlush | decSetPrev _ => exact result_or_reset_of_clears_resValid hwait hen hlifted
    | romOffset _ | romEmit _ _ | observe _ _ | fmdClassify _ | reset => cases hwait
  · intro s
    refine ⟨fun hidle b => ?_, fun hbusy hphase => ?_, fun hres => ?_, fun hc hopen x hx hne => ?_,
      fun hc hopen hat x hx => ?_, fun hopen hcount => ?_, ?_⟩
    · exact ⟨_, exec_enabled (i := .encByte b) (encIdle_iff.mpr hidle), rfl⟩
    · have hidle : encIdle (firedState .encSym s) = true := by
        rw [encIdle_iff]
        exact congrArg Encoder.busy (handOutSymbol_marker (by simp [hphase]))
      exact ⟨_, exec_enabled (i := .encSym) hbusy, fun _ => hidle, fun _ => hidle⟩
    · exact ⟨_, exec_enabled (i := .decResult) hres, fun _ => rfl, rfl, fun _ => rfl⟩
    · exact exec_decSym_lifts_decResult hc hopen (consumeSymbol_ends_at_nonData hx hne)
    · exact exec_decSym_lifts_decResult hc hopen (consumeSymbol_ends_at_budget hc hat hx)
    · exact ⟨_, exec_enabled (i := .decFlush) (decOpen_iff.mpr hopen), congrArg Decoder.resValid (flushFrame_open hcount)⟩
    · exact ⟨_, exec_enabled (i := .reset) rfl, fun _ => rfl, fun _ => rfl, fun _ => rfl, rfl, fun _ => rfl, rfl, rfl⟩

end Sys2Proof.Machine
end

section
namespace Sys2Proof.Machine

/-! What the ports show (R84 to R88), and how long an offered output stays (R240). -/

variable {p : PortInputs} {i : Instr} {s t : State}

theorem encOutSym_of_valid (h : encOutValid p s = true) :
    (portOutputs p s).encOutSym = code s.config.symbolCode (encNext s.config s.enc) := if_pos h

theorem decOutStatus_of_valid (h : decOutValid p s = true) :
    (portOutputs p s).decOutStatus = statusCode s.dec.resStatus := if_pos h

theorem decOutNslots_of_valid (h : decOutValid p s = true) : (portOutputs p s).decOutNslots = s.dec.resNslots := if_pos h

theorem decOutByte_of_valid (h : decOutValid p s = true) : (portOutputs p s).decOutByte = s.dec.resByte := if_pos h

theorem encOutValid_iff : encOutValid p s = true ↔ p.rst = false ∧ s.enc.busy = true := by simp [encOutValid]

theorem decOutValid_iff : decOutValid p s = true ↔ p.rst = false ∧ s.dec.resValid = true := by simp [decOutValid]

/-- Settles O52: the readies and valids are those of R86; under a high valid the symbol is the one that `ENC_SYM` hands out. -/
theorem readyAndValidPorts : Obligations.ReadyAndValidPorts := by
  unfold Obligations.ReadyAndValidPorts
  intro p s
  refine ⟨rfl, rfl, rfl, rfl, rfl, rfl, rfl, fun hvalid => ?_, fun hvalid => ?_⟩
  · have hbusy := (encOutValid_iff.mp hvalid).2
    rw [encOutSym_of_valid hvalid]
    exact ⟨_, exec_enabled (i := .encSym) hbusy, rfl, congrArg _ handOutSymbol_prev.symm⟩
  · exact ⟨decOutStatus_of_valid hvalid, decOutNslots_of_valid hvalid, decOutByte_of_valid hvalid⟩

/-- Settles O53: each probe fires and returns the value of its port. -/
theorem probePortsShowProbeResults : Obligations.ProbePortsShowProbeResults := by
  unfold Obligations.ProbePortsShowProbeResults
  intro p s
  exact ⟨⟨_, exec_probe rfl s, rfl⟩, ⟨_, exec_probe rfl s, rfl⟩, ⟨_, exec_probe rfl s, rfl⟩, ⟨_, exec_probe rfl s, rfl⟩,
    rfl, rfl, rfl, by simp [portOutputs, frameActive, bne, beq_eq_decide]⟩

/-- While a symbol is offered the encoder takes no input (R80). -/
theorem encEffect_while_busy (hbusy : s.enc.busy = true) (hen : enabled i s = true) (hsym : i ≠ .encSym)
    (hreset : i ≠ .reset) : encEffect i s = s.enc := by
  have hidle := encIdle_eq_false_iff.mpr hbusy
  cases i with
  | encByte _ | encSetPrev _ => exact absurd hen (Bool.eq_false_iff.mp hidle)
  | encSym => exact absurd rfl hsym
  | reset => exact absurd rfl hreset
  | _ => rfl

theorem exec_keeps_busy_encoder (hx : exec i s = .next t) (hbusy : s.enc.busy = true) (hsym : i ≠ .encSym)
    (hreset : i ≠ .reset) : t.enc = s.enc := by
  rcases exec_next hx with ⟨hen, rfl⟩ | ⟨-, rfl⟩
  · exact encEffect_while_busy hbusy hen hsym hreset
  · rfl

theorem exec_keeps_waiting_result (hx : exec i s = .next t) (hres : s.dec.resValid = true) (hresult : i ≠ .decResult)
    (hreset : i ≠ .reset) : t.dec = s.dec := by
  rcases exec_next hx with ⟨hen, rfl⟩ | ⟨-, rfl⟩
  · exact decEffect_while_result_waits hres hen hresult hreset
  · rfl

/-- Settles O57: the ports under a high valid show registers that no other transaction writes. -/
theorem offeredOutputsStayUntilTaken : Obligations.OfferedOutputsStayUntilTaken := by
  unfold Obligations.OfferedOutputsStayUntilTaken
  intro p i s t hx hreset
  refine ⟨fun hsym hvalid => ?_, fun hresult hvalid => ?_⟩
  · have henc := exec_keeps_busy_encoder hx (encOutValid_iff.mp hvalid).2 hsym hreset
    have hstays : encOutValid p t = true := by rwa [encOutValid, henc]
    rw [encOutSym_of_valid hstays, encOutSym_of_valid hvalid, henc, exec_config hx]
    exact ⟨hstays, rfl⟩
  · have hdec := exec_keeps_waiting_result hx (decOutValid_iff.mp hvalid).2 hresult hreset
    have hstays : decOutValid p t = true := by rwa [decOutValid, hdec]
    rw [decOutStatus_of_valid hstays, decOutNslots_of_valid hstays, decOutByte_of_valid hstays, hdec]
    exact ⟨hstays, (decOutStatus_of_valid hvalid).symm, (decOutNslots_of_valid hvalid).symm,
      (decOutByte_of_valid hvalid).symm⟩

end Sys2Proof.Machine
end

section
namespace Sys2Proof.Machine

/-! A rising edge as the sequence of transactions that fire at it (R87). -/

variable {p : PortInputs} {s u : State}

/-- Transactions that fire one after another, the newest first. -/
def fireAll (ops : List Instr) (s : State) : State := ops.foldr firedState s

theorem fireAll_config (ops : List Instr) (s : State) : (fireAll ops s).config = s.config := by
  induction ops with
  | nil => rfl
  | cons i ops ih => exact ih

theorem fireAll_program (ops : List Instr) (s : State) : (fireAll ops s).host.program = s.host.program := by
  induction ops with
  | nil => rfl
  | cons i ops ih => exact ih

theorem fireAll_waiting (ops : List Instr) (s : State) : (fireAll ops s).host.waiting = s.host.waiting := by
  induction ops with
  | nil => rfl
  | cons i ops ih => exact ih

/-- The trace grows by the fired transactions. -/
theorem fireAll_trace (ops : List Instr) (s : State) :
    ∃ events, (fireAll ops s).host.trace = events ++ s.host.trace ∧ ∀ e ∈ events, ∃ i ∈ ops, ∃ out, e = .fired i out := by
  induction ops with
  | nil => exact ⟨[], rfl, by simp⟩
  | cons i ops ih =>
    obtain ⟨events, htrace, hfired⟩ := ih
    refine ⟨.fired i (returnOf i (fireAll ops s)) :: events, congrArg _ htrace, fun e he => ?_⟩
    rcases List.mem_cons.mp he with rfl | he
    · exact ⟨i, List.mem_cons_self, _, rfl⟩
    · obtain ⟨j, hj, out, rfl⟩ := hfired e he
      exact ⟨j, List.mem_cons_of_mem _ hj, out, rfl⟩

theorem fireAll_decoderOps_enc {ops : List Instr} (h : ∀ i ∈ ops, isDecoderOp i = true) (s : State) :
    (fireAll ops s).enc = s.enc := by
  induction ops with
  | nil => rfl
  | cons i ops ih =>
    obtain ⟨hi, hops⟩ := List.forall_mem_cons.mp h
    exact (decoderOp_leaves_encoder hi (fireAll ops s)).trans (ih hops)

theorem fireAll_encoderOps_dec {ops : List Instr} (h : ∀ i ∈ ops, isEncoderOp i = true) (s : State) :
    (fireAll ops s).dec = s.dec := by
  induction ops with
  | nil => rfl
  | cons i ops ih =>
    obtain ⟨hi, hops⟩ := List.forall_mem_cons.mp h
    exact (encoderOp_leaves_decoder hi (fireAll ops s)).trans (ih hops)

/-- The encoder's transactions at an edge with `rst = 0` (R87, item 2), the newest first. -/
def encoderEdgeOps (p : PortInputs) (s : State) : List Instr :=
  if s.enc.busy = true then if p.encOutReady = true then [.encSym] else []
  else (if p.encInValid = true then [.encByte p.encInByte] else []) ++
    if p.encPrevLoad = true then [.encSetPrev p.encPrevIn] else []

/-- The decoder's transaction at an edge with `rst = 0` (R87, item 3), if there is one. -/
def decoderEdgeOps (p : PortInputs) (s : State) : List Instr :=
  if s.dec.resValid = true then if p.decOutReady = true then [.decResult] else []
  else if p.decPrevLoad = true then [.decSetPrev p.decPrevIn]
  else if p.decFlush = true then [.decFlush]
  else if p.decInValid = true then [.decSym p.decInSym]
  else []

theorem encoderEdgeOps_are_encoderOps : ∀ i ∈ encoderEdgeOps p s, isEncoderOp i = true := by
  unfold encoderEdgeOps
  split_ifs <;> simp [isEncoderOp]

theorem decoderEdgeOps_are_decoderOps : ∀ i ∈ decoderEdgeOps p s, isDecoderOp i = true := by
  unfold decoderEdgeOps
  split_ifs <;> simp [isDecoderOp]

theorem encoderEdge_eq_fireAll (hr : p.rst = false) (henc : u.enc = s.enc) :
    encoderEdge p s u = .next (fireAll (encoderEdgeOps p s) u) := by
  unfold encoderEdgeOps
  cases h : s.enc.busy with
  | true =>
    rw [encoderEdge_busy hr h (henc ▸ h)]
    split <;> rfl
  | false =>
    rw [encoderEdge_idle hr h (henc ▸ h)]
    cases p.encInValid <;> cases p.encPrevLoad <;> rfl

theorem decoderEdge_eq_fireAll (hr : p.rst = false) (hdec : u.dec = s.dec) :
    decoderEdge p s u = .next (fireAll (decoderEdgeOps p s) u) := by
  unfold decoderEdgeOps
  cases h : s.dec.resValid with
  | true =>
    rw [decoderEdge_waiting hr h (hdec ▸ h)]
    split <;> rfl
  | false =>
    rw [decoderEdge_open hr h (hdec ▸ h), if_neg Bool.false_ne_true]
    split_ifs <;> rfl

theorem encoderEdgeOps_leave_decoder : (fireAll (encoderEdgeOps p s) (sampleOutputs p s)).dec = s.dec :=
  fireAll_encoderOps_dec encoderEdgeOps_are_encoderOps _

/-- The host samples the ports, then the encoder's transactions fire, then the decoder's. -/
theorem clockEdge_eq_fireAll (hr : p.rst = false) :
    clockEdge p s = .next (fireAll (decoderEdgeOps p s) (fireAll (encoderEdgeOps p s) (sampleOutputs p s))) := by
  rw [clockEdge, if_neg (Bool.eq_false_iff.mp hr), encoderEdge_eq_fireAll (s := s) hr (sampleOutputs_enc s p), andThen_of_next,
    decoderEdge_eq_fireAll hr encoderEdgeOps_leave_decoder]

/-- Settles O54: `RESET` is enabled, and it is all that fires after the sample. -/
theorem resetEdgeFiresResetAlone : Obligations.ResetEdgeFiresResetAlone := by
  unfold Obligations.ResetEdgeFiresResetAlone
  intro p s hr
  rw [clockEdge, if_pos hr]
  exact ⟨_, exec_enabled (i := .reset) rfl, rfl, rfl, rfl, rfl, rfl, rfl⟩

/-- A busy encoder hands out the symbol that its port shows, where the host takes it (R87, R88). -/
theorem encoder_at_edge_busy (hr : p.rst = false) (hbusy : s.enc.busy = true) :
    (fireAll (encoderEdgeOps p s) (sampleOutputs p s)).enc =
        (if p.encOutReady = true then handOutSymbol s.config s.enc else s.enc) ∧
      (fireAll (encoderEdgeOps p s) (sampleOutputs p s)).host.trace =
        (if p.encOutReady = true then [.fired .encSym (some (.symbolCode (portOutputs p s).encOutSym))] else []) ++
          .sampled (portOutputs p s) :: s.host.trace := by
  rw [encoderEdgeOps, if_pos hbusy, encOutSym_of_valid (encOutValid_iff.mpr ⟨hr, hbusy⟩)]
  split <;> exact ⟨rfl, rfl⟩

/-- An idle encoder loads the channel state and then accepts the byte (R87, R238). -/
theorem encoder_at_edge_idle (hidle : s.enc.busy = false) :
    (fireAll (encoderEdgeOps p s) (sampleOutputs p s)).enc =
        { prev := if p.encPrevLoad = true then sym s.config.symbolCode p.encPrevIn else s.enc.prev
          shift := if p.encInValid = true then p.encInByte else s.enc.shift
          phase := if p.encInValid = true then 0#3 else s.enc.phase
          busy := p.encInValid } ∧
      (fireAll (encoderEdgeOps p s) (sampleOutputs p s)).host.trace =
        (if p.encInValid = true then [.fired (.encByte p.encInByte) none] else []) ++
          (if p.encPrevLoad = true then [.fired (.encSetPrev p.encPrevIn) none] else []) ++
          .sampled (portOutputs p s) :: s.host.trace := by
  rw [encoderEdgeOps, if_neg (Bool.eq_false_iff.mp hidle)]
  by_cases hv : p.encInValid = true
  · simp only [if_pos hv]
    rw [hv]
    split <;> exact ⟨rfl, rfl⟩
  · simp only [if_neg hv]
    rw [((Bool.not_eq_true _).mp hv).trans hidle.symm]
    split <;> exact ⟨rfl, rfl⟩

/-- Settles O55: the encoder's transactions fire first, and the decoder's leave the encoder and add their own events. -/
theorem encoderAtAnEdge : Obligations.EncoderAtAnEdge := by
  unfold Obligations.EncoderAtAnEdge
  intro p s hr
  obtain ⟨later, htrace, hlater⟩ :=
    fireAll_trace (decoderEdgeOps p s) (fireAll (encoderEdgeOps p s) (sampleOutputs p s))
  refine ⟨_, later, clockEdge_eq_fireAll hr, fun e he => ?_, fun hbusy => ?_, fun hidle => ?_⟩
  · obtain ⟨i, hi, out, rfl⟩ := hlater e he
    exact ⟨i, out, rfl, decoderEdgeOps_are_decoderOps i hi⟩
  · obtain ⟨henc, hevents⟩ := encoder_at_edge_busy hr hbusy
    rw [fireAll_decoderOps_enc decoderEdgeOps_are_decoderOps, htrace, hevents, List.append_assoc]
    exact ⟨henc, rfl⟩
  · obtain ⟨henc, hevents⟩ := encoder_at_edge_idle (p := p) hidle
    rw [fireAll_decoderOps_enc decoderEdgeOps_are_decoderOps, htrace, hevents]
    simp only [List.append_assoc, and_true]
    exact henc

/-- While a result waits the host takes it as its ports show it, or nothing happens (R87, R88). -/
theorem decoder_at_edge_waiting (hr : p.rst = false) (hres : s.dec.resValid = true) (hdec : u.dec = s.dec) :
    (fireAll (decoderEdgeOps p s) u).dec =
        (if p.decOutReady = true then { s.dec with resValid := false } else s.dec) ∧
      (fireAll (decoderEdgeOps p s) u).host.trace =
        (if p.decOutReady = true then
          [.fired .decResult (some (.resultWord
            ((portOutputs p s).decOutStatus ++ (portOutputs p s).decOutNslots ++ (portOutputs p s).decOutByte)))]
        else []) ++ u.host.trace := by
  have hvalid := decOutValid_iff.mpr ⟨hr, hres⟩
  rw [decoderEdgeOps, if_pos hres, decOutStatus_of_valid hvalid, decOutNslots_of_valid hvalid,
    decOutByte_of_valid hvalid, ← hdec]
  split <;> exact ⟨rfl, rfl⟩

/-- With no result waiting one input at most is accepted, by the priority of R87 and R208. -/
theorem decoder_at_edge_open (hopen : s.dec.resValid = false) (hdec : u.dec = s.dec) (hc : u.config = s.config) :
    (fireAll (decoderEdgeOps p s) u).dec =
        (if p.decPrevLoad = true then
          { s.dec with prev := sym s.config.symbolCode p.decPrevIn, acc := 0x00#8, count := 0#4, nslots := 0#4 }
        else if p.decFlush = true then flushFrame s.dec
        else if p.decInValid = true then consumeSymbol s.config (sym s.config.symbolCode p.decInSym) s.dec
        else s.dec) ∧
      (fireAll (decoderEdgeOps p s) u).host.trace =
        (if p.decPrevLoad = true then [.fired (.decSetPrev p.decPrevIn) none]
        else if p.decFlush = true then [.fired .decFlush none]
        else if p.decInValid = true then [.fired (.decSym p.decInSym) none]
        else []) ++ u.host.trace := by
  rw [decoderEdgeOps, if_neg (Bool.eq_false_iff.mp hopen), ← hdec, ← hc]
  split_ifs <;> exact ⟨rfl, rfl⟩

/-- Settles O56: the encoder's transactions leave the decoder and the parameters, and the decoder's fire last. -/
theorem decoderAtAnEdge : Obligations.DecoderAtAnEdge := by
  unfold Obligations.DecoderAtAnEdge
  intro p s hr
  obtain ⟨earlier, htrace, hearlier⟩ := fireAll_trace (encoderEdgeOps p s) (sampleOutputs p s)
  have hconfig := fireAll_config (encoderEdgeOps p s) (sampleOutputs p s)
  refine ⟨_, earlier, clockEdge_eq_fireAll hr, ?_, ?_, ?_, fun e he => ?_, fun hres => ?_, fun hopen => ?_⟩
  · rw [fireAll_config, hconfig, sampleOutputs_config]
  · rw [fireAll_program, fireAll_program, sampleOutputs_program]
  · rw [fireAll_waiting, fireAll_waiting, sampleOutputs_waiting]
  · obtain ⟨i, hi, out, rfl⟩ := hearlier e he
    exact ⟨i, out, rfl, encoderEdgeOps_are_encoderOps i hi⟩
  · obtain ⟨hafter, hevents⟩ := decoder_at_edge_waiting hr hres encoderEdgeOps_leave_decoder
    rw [hevents, htrace, List.append_assoc]
    exact ⟨hafter, rfl⟩
  · obtain ⟨hafter, hevents⟩ := decoder_at_edge_open (p := p) hopen encoderEdgeOps_leave_decoder hconfig
    rw [hevents, htrace, List.append_assoc]
    exact ⟨hafter, rfl⟩

end Sys2Proof.Machine
end

section
namespace Sys2Proof.Machine

/-! The words of a line (R89, R90). -/

theorem append_eq_or_zeroExtend {m n : Nat} (x : BitVec m) (y : BitVec n) :
    x ++ y = (x ++ 0#n) ||| y.zeroExtend (m + n) := by
  ext k hk
  by_cases hlow : k < n
  · simp [BitVec.getElem_append, hlow]
  · simp [BitVec.getElem_append, hlow, BitVec.getLsbD_of_ge y k (Nat.le_of_not_lt hlow)]

theorem encode_encByte (b : Byte) : encode (.encByte b) = 0x1000#16 ||| b.zeroExtend 16 :=
  append_eq_or_zeroExtend (0x1#4 ++ 0#4) b

/-- The words with one symbol operand: the op above the operand's code. -/
theorem symbol_word (op : BitVec 4) (k : Code) : op ++ 0#9 ++ k = (op ++ 0#9 ++ 0#3) ||| k.zeroExtend 16 :=
  append_eq_or_zeroExtend (op ++ 0#9) k

theorem encode_romEmit (v : Value) (p : Code) :
    encode (.romEmit v p) = 0x9000#16 ||| v.zeroExtend 16 <<< 4 ||| p.zeroExtend 16 := by
  revert v p; decide

theorem encode_observe (i p : Code) :
    encode (.observe i p) = 0xA000#16 ||| i.zeroExtend 16 <<< 4 ||| p.zeroExtend 16 := by
  revert i p; decide

theorem lineWords_encString (c : SymbolCode) (bs : List Byte) :
    lineWords c (.encString bs) = bs.flatMap fun b => lineWords c (.encFrame b) :=
  List.map_flatMap ..

theorem lineWords_decStream (c : SymbolCode) (ss : List SymOperand) :
    lineWords c (.decStream ss) = ss.flatMap fun x => lineWords c (.decSym x) := by
  induction ss with
  | nil => rfl
  | cons x ss ih => exact congrArg _ ih

theorem lineWords_decFrame (c : SymbolCode) (ss : List SymOperand) :
    lineWords c (.decFrame ss) = lineWords c (.decStream ss) ++ lineWords c .decResult :=
  List.map_append ..

/-- Settles O60: a pseudo-instruction's words are those of its lines, and each line's word has its operands in their fields. -/
theorem pseudoInstructionWords : Obligations.PseudoInstructionWords := by
  unfold Obligations.PseudoInstructionWords
  intro c b v x y bs ss
  exact ⟨rfl, lineWords_encString c bs, lineWords_decStream c ss, lineWords_decFrame c ss, fun _ => rfl, fun _ => rfl,
    List.singleton_inj.mpr (encode_encByte b), rfl, List.singleton_inj.mpr (symbol_word 0x3#4 _),
    List.singleton_inj.mpr (symbol_word 0x4#4 _), rfl, List.singleton_inj.mpr (symbol_word 0x6#4 _), rfl,
    List.singleton_inj.mpr (symbol_word 0x8#4 _), List.singleton_inj.mpr (encode_romEmit v _),
    List.singleton_inj.mpr (encode_observe _ _), List.singleton_inj.mpr (symbol_word 0xB#4 _), rfl⟩

end Sys2Proof.Machine
end

section
namespace Sys2Proof.Machine

/-! The cycle of the five data symbols (R110 to R115): `emit` goes `offset(p)` places on from place `v`, `dval` goes back. -/

variable {c : SymbolCode} {x p : Symbol}

theorem indexOf_lt (x : Symbol) : indexOf x < 5 := by cases x <;> decide

theorem indexOf_dataSymbol {k : Nat} (h : k < 5) : indexOf (dataSymbol k) = k := by
  interval_cases k <;> rfl

theorem dataSymbol_indexOf (h : isData x = true) : dataSymbol (indexOf x) = x := by
  revert h; cases x <;> decide

theorem offset_le (p : Symbol) : offset p ≤ 5 := by cases p <;> decide

/-- `offset(Dk) = k + 1` (R110). -/
theorem offset_of_isData (h : isData p = true) : offset p = indexOf p + 1 := by
  revert h; cases p <;> decide

theorem offset_eq_zero_iff : offset p = 0 ↔ isData p = false := by
  cases p <;> decide

theorem isData_eq_false_iff : isData p = false ↔ p = .closed ∨ p = .mark1 ∨ p = .mark2 := by
  cases p <;> decide

theorem indexOf_emit (v : Value) (p : Symbol) : indexOf (emit v p) = (v.toNat + offset p) % 5 :=
  indexOf_dataSymbol (Nat.mod_lt _ (by decide))

theorem emit_of_isData (v : Value) (h : isData p = true) : emit v p = dataSymbol ((v.toNat + indexOf p + 1) % 5) := by
  rw [emit, offset_of_isData h, Nat.add_assoc]

theorem emit_of_offset_zero (v : Value) (h : offset p = 0) : emit v p = dataSymbol v.toNat := by
  rw [emit, h, Nat.add_zero, Nat.mod_eq_of_lt (by omega)]

/-- Going on by 1 to 4 places never comes back to `p` (R113). -/
theorem emit_ne (v : Value) (p : Symbol) : emit v p ≠ p := by
  intro heq
  have hoffset := offset_of_isData (heq ▸ isData_emit v p)
  have hindex := indexOf_emit v p
  rw [heq, hoffset] at hindex
  have := indexOf_lt p
  omega

theorem emit_ne_d4 (v : Value) (h : offset p = 0) : emit v p ≠ .d4 := by
  intro heq
  have hindex := indexOf_emit v p
  rw [heq, h, show indexOf .d4 = 4 from rfl] at hindex
  omega

/-- Both branches of R114 go back `offset(p)` places in the cycle of five. -/
theorem dval_of_isData (h : isData x = true) (p : Symbol) :
    dval x p = BitVec.ofNat 2 ((5 + indexOf x - offset p) % 5 % 4) := by
  have hx := indexOf_lt x
  have hp := offset_le p
  rw [dval, if_pos h]
  split
  case isTrue hge => rw [show (5 + indexOf x - offset p) % 5 = indexOf x - offset p by omega]
  case isFalse hlt => rw [Nat.mod_eq_of_lt (b := 5) (by omega)]

/-- `dval` undoes `emit` (R115). -/
theorem dval_emit (v : Value) (p : Symbol) : dval (emit v p) p = v := by
  have hp := offset_le p
  rw [dval_of_isData (isData_emit v p), indexOf_emit,
    show (5 + (v.toNat + offset p) % 5 - offset p) % 5 % 4 = v.toNat by omega, BitVec.ofNat_toNat, BitVec.setWidth_eq]

theorem emit_injective {v w : Value} (h : emit w p = emit v p) : w = v := by
  rw [← dval_emit w p, h, dval_emit v p]

/-- Only one data symbol lies four steps on from `offset(p)`, where no value leads: `p` itself, or `D4` (R113). -/
theorem steps_back_ne_four (hx : isData x = true) (hdata : isData p = true → x ≠ p)
    (hother : isData p = false → x ≠ .d4) : (5 + indexOf x - offset p) % 5 ≠ 4 := by
  have hlt := indexOf_lt x
  intro hfour
  cases hp : isData p with
  | true =>
    have hsame : indexOf x = indexOf p := by
      have := indexOf_lt p
      have := offset_of_isData hp
      omega
    exact hdata hp (by rw [← dataSymbol_indexOf hx, hsame, dataSymbol_indexOf hp])
  | false =>
    have hlast : indexOf x = 4 := by
      have := offset_eq_zero_iff.mpr hp
      omega
    exact hother hp (by rw [← dataSymbol_indexOf hx, hlast]; rfl)

/-- `emit` undoes `dval` on its image (R113). -/
theorem emit_dval (hx : isData x = true) (hdata : isData p = true → x ≠ p) (hother : isData p = false → x ≠ .d4) :
    emit (dval x p) p = x := by
  have hlt := indexOf_lt x
  have hp := offset_le p
  have hne := steps_back_ne_four hx hdata hother
  have hplace : ((dval x p).toNat + offset p) % 5 = indexOf x := by
    rw [dval_of_isData hx, BitVec.toNat_ofNat]
    omega
  rw [emit, hplace, dataSymbol_indexOf hx]

/-- The image of `emit` for a fixed `p` (R113). -/
theorem exists_emit_eq_iff (x p : Symbol) :
    (∃ w, emit w p = x) ↔ isData x = true ∧ (isData p = true → x ≠ p) ∧ (isData p = false → x ≠ .d4) := by
  constructor
  · rintro ⟨w, rfl⟩
    exact ⟨isData_emit w p, fun _ => emit_ne w p, fun hp => emit_ne_d4 w (offset_eq_zero_iff.mpr hp)⟩
  · rintro ⟨hx, hdata, hother⟩
    exact ⟨dval x p, emit_dval hx hdata hother⟩

/-- Settles O14: adding `offset(p)` in the cycle of five, with `dval` as the inverse. -/
theorem emitProperties : Obligations.EmitProperties := by
  unfold Obligations.EmitProperties
  intro v p
  exact ⟨isData_emit v p, emit_ne v p, emit_of_isData v, offset_eq_zero_iff.trans isData_eq_false_iff,
    fun h => ⟨emit_of_offset_zero v h, emit_ne_d4 v h⟩, fun _ => emit_injective, fun x => exists_emit_eq_iff x p⟩

end Sys2Proof.Machine
end

section
namespace Sys2Proof.Machine

/-! The ROM probes and the round trip through `OBSERVE` (R115, R119, R120), and the listed contents (R116 to R118). -/

variable {c : SymbolCode}

@[simp] theorem lastReturned_afterFiring (i : Instr) (out : Option HostValue) (e : Encoder) (d : Decoder) (s : State) :
    lastReturned (afterFiring i out e d s) = out := rfl

@[simp] theorem afterFiring_config (i : Instr) (out : Option HostValue) (e : Encoder) (d : Decoder) (s : State) :
    (afterFiring i out e d s).config = s.config := rfl

theorem exec_romEmit_code {s : State} (hc : s.config.symbolCode.wellFormed = true) (v : Value) (p : Symbol) :
    exec (.romEmit v (code s.config.symbolCode p)) s =
      .next (afterFiring (.romEmit v (code s.config.symbolCode p))
        (some (.symbolCode (code s.config.symbolCode (emit v p)))) s.enc s.dec s) := by
  rw [exec_probe rfl, returnOf, romReadEmit_eq hc]

/-- What `emit(v, p)` is observed as against `p` (R115). -/
theorem observeTransition_emit (hc : c.wellFormed = true) (v : Value) (p : Symbol) :
    observeTransition c (emit v p) p = .data v := by
  rw [observeTransition_data hc (isData_emit v p) (emit_ne v p), dval_emit]

/-- Settles O15: the code returned is that of `emit(v, p)`, which differs from `p` and is observed as `Data(v)`. -/
theorem observeInvertsRomEmit : Obligations.ObserveInvertsRomEmit := by
  unfold Obligations.ObserveInvertsRomEmit
  intro s v k hc
  obtain ⟨p, rfl⟩ : ∃ p, code s.config.symbolCode p = k := ⟨_, code_sym hc k⟩
  refine ⟨_, _, _, exec_romEmit_code hc v p, rfl, fun hsame => emit_ne v p (code_injective hc hsame),
    exec_probe rfl _, ?_⟩
  rw [lastReturned_afterFiring, returnOf, afterFiring_config, sym_code hc, sym_code hc, observeTransition_emit hc,
    outcomeWord]

/-- Settles O13: the read of the `EMIT` table is `emit` under every well-formed `SYMBOL_CODE`. -/
theorem romEmitReturnsNextSymbol : Obligations.RomEmitReturnsNextSymbol := by
  unfold Obligations.RomEmitReturnsNextSymbol
  intro s v p hc
  exact exec_romEmit_code hc v p

theorem romReadOffset_standard (k : Code) :
    romReadOffset SymbolCode.standard k = if 0b001#3 ≤ k ∧ k ≤ 0b101#3 then k else 0#3 := by
  revert k; decide

/-- Settles O12: the read of the `OFFSET` table, symbol by symbol, and by codes under the default `SYMBOL_CODE`. -/
theorem romOffsetReturnsOffset : Obligations.RomOffsetReturnsOffset := by
  unfold Obligations.RomOffsetReturnsOffset
  intro s hc
  constructor
  · intro x
    rw [exec_probe rfl, returnOf, romReadOffset_eq hc]
    cases x <;> rfl
  · intro hstandard k
    rw [exec_probe rfl, returnOf, hstandard, romReadOffset_standard]

theorem offsetContents_eq (a : Code) : offsetContents[a.toNat]? = some (romReadOffset SymbolCode.standard a) := by
  revert a; decide

theorem emitContents_eq (a : Code) (v : Value) :
    emitContents[(a ++ v).toNat]? = some (romReadEmit SymbolCode.standard (a ++ v)) := by
  revert a v; decide

theorem dvalContents_eq (a : BitVec 6) : dvalContents[a.toNat]? = some (romReadDval SymbolCode.standard a) := by
  revert a; decide

/-- Settles O16: each of the listed entries is the read at its address, and the probes return the reads. -/
theorem romHoldsListedContents : Obligations.RomHoldsListedContents := by
  unfold Obligations.RomHoldsListedContents
  intro s hstandard
  refine ⟨fun a => ⟨_, exec_probe rfl s, rfl, ?_⟩, fun a v => ⟨_, exec_probe rfl s, rfl, ?_⟩, fun a => ?_⟩
  · rw [lastReturned_afterFiring, returnOf, hstandard, offsetContents_eq, Option.map_some]
  · rw [lastReturned_afterFiring, returnOf, hstandard, emitContents_eq, Option.map_some]
  · rw [hstandard, dvalContents_eq]

end Sys2Proof.Machine
end

section
namespace Sys2Proof.Machine

/-! The encoder's transactions one by one (R131 to R133, R136): the state each leaves when it fires. -/

variable {s : State}

/-- Settles O11: an enabled transaction fires, any other one waits. -/
theorem noTransactionStops : Obligations.NoTransactionStops := by
  unfold Obligations.NoTransactionStops
  intro i s
  cases hen : enabled i s with
  | true => exact ⟨_, exec_enabled hen⟩
  | false => exact ⟨_, exec_waits hen⟩

theorem exec_encByte_idle (hidle : s.enc.busy = false) (b : Byte) :
    exec (.encByte b) s = .next (afterFiring (.encByte b) none (acceptByte b s.enc) s.dec s) :=
  exec_enabled (i := .encByte b) (encIdle_iff.mpr hidle)

theorem exec_encSym_busy (hbusy : s.enc.busy = true) :
    exec .encSym s =
      .next (afterFiring .encSym (some (.symbolCode (code s.config.symbolCode (encNext s.config s.enc))))
        (handOutSymbol s.config s.enc) s.dec s) :=
  exec_enabled (i := .encSym) hbusy

theorem exec_encSetPrev_idle (hidle : s.enc.busy = false) (k : Code) :
    exec (.encSetPrev k) s =
      .next (afterFiring (.encSetPrev k) none (loadEncPrev (sym s.config.symbolCode k) s.enc) s.dec s) :=
  exec_enabled (i := .encSetPrev k) (encIdle_iff.mpr hidle)

/-- Settles O21: an idle encoder accepts the byte. -/
theorem encByteAcceptsByte : Obligations.EncByteAcceptsByte := by
  unfold Obligations.EncByteAcceptsByte
  intro s b hidle
  exact exec_encByte_idle hidle b

theorem exec_encSym_data (hc : s.config.symbolCode.wellFormed = true) (hbusy : s.enc.busy = true)
    (hphase : s.enc.phase < 4#3) :
    exec .encSym s =
      .next (afterFiring .encSym
        (some (.symbolCode (code s.config.symbolCode (emit (topChunk s.enc.shift) s.enc.prev))))
        { prev := emit (topChunk s.enc.shift) s.enc.prev
          shift := s.enc.shift <<< 2
          phase := s.enc.phase + 1#3
          busy := true } s.dec s) := by
  rw [exec_encSym_busy hbusy, encNext_data hc hphase, handOutSymbol_data hc hphase, hbusy]

theorem exec_encSym_marker (hbusy : s.enc.busy = true) (hphase : s.enc.phase = 4#3) :
    exec .encSym s =
      .next (afterFiring .encSym (some (.symbolCode (code s.config.symbolCode (markerSymbol s.config.encMarker))))
        { prev := markerSymbol s.config.encMarker, shift := s.enc.shift, phase := 0#3, busy := false } s.dec s) := by
  have hlast : ¬s.enc.phase < 4#3 := by simp [hphase]
  rw [exec_encSym_busy hbusy, encNext_marker hlast, handOutSymbol_marker hlast]

/-- Settles O22: the table read is `emit`, and the encoder stays busy. -/
theorem encSymHandsOutDataSymbol : Obligations.EncSymHandsOutDataSymbol := by
  unfold Obligations.EncSymHandsOutDataSymbol
  intro s hc hbusy hphase
  exact exec_encSym_data hc hbusy hphase

/-- Settles O23: phase 4 is the `else` of R130. -/
theorem encSymHandsOutMarker : Obligations.EncSymHandsOutMarker := by
  unfold Obligations.EncSymHandsOutMarker
  intro s hbusy hphase
  exact exec_encSym_marker hbusy hphase

theorem topChunk_toNat (b : Byte) : (topChunk b).toNat = b.toNat / 64 := by
  have hb := b.isLt
  rw [topChunk, BitVec.extractLsb'_toNat, Nat.shiftRight_eq_div_pow]
  omega

/-- Settles O24: against `Closed` or a marker the offset is 0, so `emit` is `data`. -/
theorem encSymAfterNonDataSymbol : Obligations.EncSymAfterNonDataSymbol := by
  unfold Obligations.EncSymAfterNonDataSymbol
  intro s hc hbusy hphase hprev
  have hoffset := offset_eq_zero_iff.mpr hprev
  refine ⟨_, exec_encSym_data hc hbusy hphase, ?_, emit_ne_d4 _ hoffset, rfl⟩
  exact (emit_of_offset_zero _ hoffset).trans (congrArg dataSymbol (topChunk_toNat s.enc.shift))

/-- Settles O25: the code loads its symbol, and the encoder stays idle. -/
theorem encSetPrevLoadsChannelState : Obligations.EncSetPrevLoadsChannelState := by
  unfold Obligations.EncSetPrevLoadsChannelState
  intro s x hc hidle
  rw [exec_encSetPrev_idle hidle, sym_code hc, loadEncPrev, hidle]

end Sys2Proof.Machine
end

section
namespace Sys2Proof.Machine

/-! A whole frame (R134): the shift register brings the chunks of the byte to the top, one after another. -/

variable {i : Instr} {s t u : State}

theorem runAll_cons {rest : List Instr} (hx : exec i s = .next u) : runAll (i :: rest) s = runAll rest u := by
  rw [runAll, hx, andThen_of_next]

/-- One shift of 2 moves every chunk up by one place (R26). -/
theorem chunk_shiftLeft {k : Nat} (hk : k < 3) (b : Byte) : chunk k (b <<< 2) = chunk (k + 1) b := by
  apply BitVec.eq_of_getLsbD_eq
  intro j hj
  simp only [chunk, BitVec.getLsbD_extractLsb', BitVec.getLsbD_shiftLeft]
  rw [show 6 - 2 * k + j - 2 = 6 - 2 * (k + 1) + j by omega]
  simp [hj, show 6 - 2 * k + j < 8 by omega, show ¬6 - 2 * k + j < 2 by omega]

/-- The chunk at the top of the shift register after one, two and three data symbols. -/
theorem topChunk_after_shifts (b : Byte) :
    topChunk (b <<< 2) = chunk 1 b ∧ topChunk (b <<< 2 <<< 2) = chunk 2 b ∧
      topChunk (b <<< 2 <<< 2 <<< 2) = chunk 3 b := by
  refine ⟨chunk_shiftLeft (k := 0) (by decide) b, ?_, ?_⟩
  · calc chunk 0 (b <<< 2 <<< 2) = chunk 1 (b <<< 2) := chunk_shiftLeft (by decide) _
      _ = chunk 2 b := chunk_shiftLeft (by decide) b
  · calc chunk 0 (b <<< 2 <<< 2 <<< 2) = chunk 1 (b <<< 2 <<< 2) := chunk_shiftLeft (by decide) _
      _ = chunk 2 (b <<< 2) := chunk_shiftLeft (by decide) _
      _ = chunk 3 b := chunk_shiftLeft (by decide) b

/-- Four shifts empty the shift register. -/
theorem shift_out (b : Byte) : b <<< 2 <<< 2 <<< 2 <<< 2 = 0x00#8 := by
  rw [← BitVec.shiftLeft_add, ← BitVec.shiftLeft_add, ← BitVec.shiftLeft_add]
  exact BitVec.shiftLeft_eq_zero (by decide)

/-- Settles O26: one `ENC_BYTE`, four data symbols with the chunks 0 to 3 of the byte, one marker. -/
theorem encodeByteCorrespondence : Obligations.EncodeByteCorrespondence := by
  unfold Obligations.EncodeByteCorrespondence
  rintro s b s1 s2 s3 s4 hc hidle rfl rfl rfl rfl
  have hrun :=
    calc runAll [.encByte b, .encSym, .encSym, .encSym, .encSym, .encSym] s
      _ = _ := runAll_cons (exec_encByte_idle hidle b)
      _ = _ := runAll_cons (exec_encSym_data hc rfl (by decide : 0#3 < 4#3))
      _ = _ := runAll_cons (exec_encSym_data hc rfl (by decide : 1#3 < 4#3))
      _ = _ := runAll_cons (exec_encSym_data hc rfl (by decide : 2#3 < 4#3))
      _ = _ := runAll_cons (exec_encSym_data hc rfl (by decide : 3#3 < 4#3))
      _ = _ := runAll_cons (exec_encSym_marker rfl rfl)
  obtain ⟨hchunk1, hchunk2, hchunk3⟩ := topChunk_after_shifts b
  simp only [afterFiring, acceptByte, hchunk1, hchunk2, hchunk3, shift_out] at hrun
  exact ⟨rfl, _, hrun, rfl, rfl, rfl, rfl, rfl, rfl, rfl⟩

end Sys2Proof.Machine
end

section
namespace Sys2Proof.Machine

/-! The symbols handed out since the last `RESET` (R135). -/

variable {c : Config} {i : Instr} {s t : State} {k : Code} {l : List Code} {n : Nat}

theorem noRepeat_cons : noRepeat (k :: l) = true ↔ l.head? ≠ some k ∧ noRepeat l = true := by
  cases l with
  | nil => simp [noRepeat]
  | cons x rest => simp [noRepeat, eq_comm (a := k)]

/-- Between frames the newest symbol is the marker of the last one. -/
theorem head_eq_marker_of_framedAt_zero (h : framedAt c 0 l = true) (hk : l.head? = some k) :
    k = code c.symbolCode (markerSymbol c.encMarker) := by
  cases l with
  | nil => cases hk
  | cons x rest =>
    obtain rfl := Option.some.inj hk
    simp only [framedAt, Bool.and_eq_true, decide_eq_true_eq] at h
    exact h.1

/-- In an open frame the newest symbol is a data symbol. -/
theorem isData_head_of_framedAt_succ (h : framedAt c (n + 1) l = true) (hk : l.head? = some k) :
    isData (sym c.symbolCode k) = true := by
  cases l with
  | nil => cases hk
  | cons x rest =>
    obtain rfl := Option.some.inj hk
    simp only [framedAt, Bool.and_eq_true] at h
    exact h.1

theorem isData_markerSymbol (m : Marker) : isData (markerSymbol m) = false := by cases m <;> rfl

/-- A data symbol is no repeat: a frame's first one follows a marker, every other one is `emit` against the newest. -/
theorem data_ne_newest (hc : s.config.symbolCode.wellFormed = true) (h : StreamInv s) (hbusy : s.enc.busy = true)
    (v : Value) :
    (handedOut s.host.trace).head? ≠ some (code s.config.symbolCode (emit v s.enc.prev)) := by
  intro hhead
  rcases Nat.eq_zero_or_pos s.enc.phase.toNat with hzero | hpos
  · have hmarker := code_injective hc (head_eq_marker_of_framedAt_zero (hzero ▸ h.framed) hhead)
    have hdata := isData_emit v s.enc.prev
    rw [hmarker, isData_markerSymbol] at hdata
    cases hdata
  · rw [h.newest hbusy hpos] at hhead
    exact emit_ne v s.enc.prev (code_injective hc (Option.some.inj hhead)).symm

/-- The marker is no repeat: it follows a data symbol. -/
theorem marker_ne_newest (hc : c.symbolCode.wellFormed = true) (h : framedAt c 4 l = true) :
    l.head? ≠ some (code c.symbolCode (markerSymbol c.encMarker)) := by
  intro hhead
  have hdata := isData_head_of_framedAt_succ h hhead
  rw [sym_code hc, isData_markerSymbol] at hdata
  cases hdata

/-- A symbol handed out that is no repeat and continues the framing keeps the stream invariant: it is not `Closed` and
becomes the channel state (R132). -/
theorem streamInv_encSym (hc : s.config.symbolCode.wellFormed = true) (h : StreamInv s)
    (hframed : framedAt s.config (handOutSymbol s.config s.enc).phase.toNat
      (code s.config.symbolCode (encNext s.config s.enc) :: handedOut s.host.trace) = true)
    (hfresh : (handedOut s.host.trace).head? ≠ some (code s.config.symbolCode (encNext s.config s.enc))) :
    StreamInv (firedState .encSym s) where
  framed := hframed
  no_repeat := noRepeat_cons.mpr ⟨hfresh, h.no_repeat⟩
  never_closed := List.forall_mem_cons.mpr
    ⟨fun hclosed => encNext_ne_closed hc (code_injective hc hclosed), h.never_closed⟩
  newest _ _ := congrArg (fun x => some (code s.config.symbolCode x)) handOutSymbol_prev.symm

theorem streamInv_encSym_data (hc : s.config.symbolCode.wellFormed = true) (h : StreamInv s) (hbusy : s.enc.busy = true)
    (hphase : s.enc.phase < 4#3) : StreamInv (firedState .encSym s) := by
  apply streamInv_encSym hc h <;> rw [encNext_data hc hphase]
  · have hnext : (s.enc.phase + 1#3).toNat = s.enc.phase.toNat + 1 := by bv_omega
    simp only [handOutSymbol_data hc hphase, hnext, framedAt, sym_code hc, isData_emit, h.framed, Bool.and_self]
  · exact data_ne_newest hc h hbusy _

theorem streamInv_encSym_marker (hc : s.config.symbolCode.wellFormed = true) (h : StreamInv s)
    (hphase : s.enc.phase = 4#3) : StreamInv (firedState .encSym s) := by
  have hlast : ¬s.enc.phase < 4#3 := by simp [hphase]
  have hframed : framedAt s.config 4 (handedOut s.host.trace) = true := by simpa [hphase] using h.framed
  apply streamInv_encSym hc h <;> rw [encNext_marker hlast]
  · rw [handOutSymbol_marker hlast]
    simp [framedAt, hframed]
  · exact marker_ne_newest hc hframed

/-- Where nothing is handed out and the phase stays, the framing stays. -/
theorem StreamInv.of_same_stream (h : StreamInv s) (hconfig : t.config = s.config) (hphase : t.enc.phase = s.enc.phase)
    (hstream : handedOut t.host.trace = handedOut s.host.trace) (hnewest : newestIsPrev t) : StreamInv t where
  framed := by rw [hconfig, hphase, hstream]; exact h.framed
  no_repeat := by rw [hstream]; exact h.no_repeat
  never_closed := by rw [hconfig, hstream]; exact h.never_closed
  newest := hnewest

theorem StreamInv.of_same_encoder (h : StreamInv s) (hconfig : t.config = s.config) (henc : t.enc = s.enc)
    (hstream : handedOut t.host.trace = handedOut s.host.trace) : StreamInv t :=
  h.of_same_stream hconfig (by rw [henc]) hstream (by unfold newestIsPrev; rw [hconfig, henc, hstream]; exact h.newest)

/-- Between frames any channel state may be loaded and a byte accepted. -/
theorem StreamInv.of_phase_zero (h : StreamInv s) (hconfig : t.config = s.config)
    (hstream : handedOut t.host.trace = handedOut s.host.trace) (hs : s.enc.phase = 0#3) (ht : t.enc.phase = 0#3) :
    StreamInv t :=
  h.of_same_stream hconfig (ht.trans hs.symm) hstream (fun _ hpos => by simp [ht] at hpos)

theorem streamInv_of_nothing_handed_out (henc : s.enc = Encoder.reset) (hstream : handedOut s.host.trace = []) :
    StreamInv s where
  framed := by rw [henc, hstream]; rfl
  no_repeat := by rw [hstream]; rfl
  never_closed := by simp [hstream]
  newest hbusy := by rw [henc] at hbusy; cases hbusy

theorem streamInv_firedState (hm : MachineInv s) (h : StreamInv s) (hen : enabled i s = true) :
    StreamInv (firedState i s) := by
  obtain ⟨-, -, hc⟩ := Config.wellFormed_iff.mp hm.config
  cases i with
  | encByte b => exact h.of_phase_zero rfl rfl (hm.enc.idle_phase (encIdle_iff.mp hen)) rfl
  | encSym =>
    by_cases hphase : s.enc.phase < 4#3
    · exact streamInv_encSym_data hc h hen hphase
    · have hle := hm.enc.phase_le
      exact streamInv_encSym_marker hc h (by bv_omega)
  | encSetPrev x =>
    have hphase := hm.enc.idle_phase (encIdle_iff.mp hen)
    exact h.of_phase_zero rfl rfl hphase hphase
  | reset => exact streamInv_of_nothing_handed_out rfl rfl
  | _ => exact h.of_same_encoder rfl rfl rfl

/-- R38 and R135 together, which every step keeps: the stream's framing rests on the phases of R38. -/
def EncodingInv (s : State) : Prop := MachineInv s ∧ StreamInv s

theorem encodingInv_exec (h : EncodingInv s) (hx : exec i s = .next t) : EncodingInv t := by
  obtain ⟨hm, hs⟩ := h
  refine ⟨machineInv_exec hm hx, ?_⟩
  rcases exec_next hx with ⟨hen, rfl⟩ | ⟨-, rfl⟩
  · exact streamInv_firedState hm hs hen
  · exact hs.of_same_encoder rfl rfl rfl

/-- Samples and offers touch no register, and hand nothing out. -/
theorem EncodingInv.of_same_registers (h : EncodingInv s) (hconfig : t.config = s.config) (henc : t.enc = s.enc)
    (hdec : t.dec = s.dec) (hstream : handedOut t.host.trace = handedOut s.host.trace) : EncodingInv t := by
  obtain ⟨hm, hs⟩ := h
  refine ⟨⟨?_, ?_, ?_⟩, hs.of_same_encoder hconfig henc hstream⟩
  · rw [hconfig]; exact hm.config
  · rw [henc]; exact hm.enc
  · rw [hconfig, hdec]; exact hm.dec

/-- Settles O27: every transaction keeps the invariants of R38 and R135 together, and so does every step. -/
theorem stepKeepsStreamInvariant : Obligations.StepKeepsStreamInvariant := by
  unfold Obligations.StepKeepsStreamInvariant
  intro s t hm hs hstep
  have hkept : EncodingInv t := step_keeps EncodingInv (fun _ _ _ => encodingInv_exec)
    (fun _ _ h => h.of_same_registers rfl rfl rfl rfl) (fun _ _ h => h.of_same_registers rfl rfl rfl rfl)
    (fun _ _ h => h.of_same_registers rfl rfl rfl rfl) ⟨hm, hs⟩ hstep
  exact hkept.2

/-- Settles O28: the encoder is idle and no symbol has been handed out. -/
theorem streamInvariantAtReset : Obligations.StreamInvariantAtReset := by
  unfold Obligations.StreamInvariantAtReset
  intro c program waiting _
  exact streamInv_of_nothing_handed_out rfl rfl

end Sys2Proof.Machine
end

section
namespace Sys2Proof.Machine

/-! `frame_marker_detector` (R150 to R155): the words its two probes return, and the markers that end the decoder's frames. -/

variable {s : State}

/-- The word of an observation, by the steps of R151 in their order; the `DVAL` read of the last one is `dval`. -/
theorem outcomeWord_observeTransition {c : SymbolCode} (hc : c.wellFormed = true) (i p : Symbol) :
    outcomeWord (observeTransition c i p) =
      if i = p then 0b00000#5
      else if i = .closed then 0b00100#5
      else if i = .mark1 then 0b01000#5
      else if i = .mark2 then 0b01100#5
      else 0b100#3 ++ dval i p := by
  rw [observeTransition, romReadDval_eq hc]
  split_ifs <;> rfl

/-- Settles O17: the codes name the two symbols, and the probe returns the word of their observation. -/
theorem observeFollowsStepOrder : Obligations.ObserveFollowsStepOrder := by
  unfold Obligations.ObserveFollowsStepOrder
  intro s i p hc
  rw [exec_probe rfl, returnOf, sym_code hc, sym_code hc, outcomeWord_observeTransition hc]

theorem outcomeContents_eq (i p : Code) :
    outcomeContents[(i ++ p).toNat]? =
      some (outcomeWord (observeTransition SymbolCode.standard (sym SymbolCode.standard i)
        (sym SymbolCode.standard p))) := by
  revert i p; decide

/-- Settles O18: each of the 64 listed words is that of the observation at its address, which the probe returns. -/
theorem observeReturnsListedOutcome : Obligations.ObserveReturnsListedOutcome := by
  unfold Obligations.ObserveReturnsListedOutcome
  intro s i p hstandard
  refine ⟨_, exec_probe rfl s, rfl, ?_⟩
  rw [lastReturned_afterFiring, returnOf, hstandard, outcomeContents_eq, Option.map_some]

/-- Settles O19: the code names the symbol, and each symbol's class has the listed word. -/
theorem classifyReturnsClass : Obligations.ClassifyReturnsClass := by
  unfold Obligations.ClassifyReturnsClass
  intro s x hc
  rw [exec_probe rfl, returnOf, sym_code hc]
  cases x <;> rfl

/-- `finish` writes every register of the decoder but `dec_prev` (R170). -/
theorem finish_eq_afterFrameEnd (st : Status) (a : Byte) (n : BitVec 4) (d : Decoder) :
    finish st a n d = afterFrameEnd d.prev st a n := rfl

theorem exec_decSym_consumes (hc : s.config.symbolCode.wellFormed = true) (hopen : s.dec.resValid = false) (x : Symbol) :
    exec (.decSym (code s.config.symbolCode x)) s =
      .next (afterFiring (.decSym (code s.config.symbolCode x)) none s.enc (consumeSymbol s.config x s.dec) s) := by
  have hfires := exec_enabled (i := .decSym (code s.config.symbolCode x)) (decOpen_iff.mpr hopen)
  rwa [firedState, decEffect, sym_code hc] at hfires

/-- A marker that is no repeat ends the frame before any count is taken (R155, R171). -/
theorem consumeSymbol_marker {d : Decoder} (c : Config) (m : Marker) (hne : d.prev ≠ markerSymbol m) :
    consumeSymbol c (markerSymbol m) d = afterFrameEnd (markerSymbol m) (okStatus m) d.acc d.nslots := by
  rw [consumeSymbol, observeTransition, if_neg hne.symm]
  cases m with
  | mark1 => exact finish_eq_afterFrameEnd ..
  | mark2 => exact finish_eq_afterFrameEnd ..

theorem exec_decSym_marker (hc : s.config.symbolCode.wellFormed = true) (hopen : s.dec.resValid = false) (m : Marker)
    (hne : s.dec.prev ≠ markerSymbol m) :
    exec (.decSym (code s.config.symbolCode (markerSymbol m))) s =
      .next (afterFiring (.decSym (code s.config.symbolCode (markerSymbol m))) none s.enc
        (afterFrameEnd (markerSymbol m) (okStatus m) s.dec.acc s.dec.nslots) s) := by
  rw [exec_decSym_consumes hc hopen, consumeSymbol_marker s.config m hne]

/-- Settles O36: either marker, where it is no repeat, ends the frame with its own status. -/
theorem decSymMarkerEndsFrame : Obligations.DecSymMarkerEndsFrame := by
  unfold Obligations.DecSymMarkerEndsFrame
  intro s hc hopen
  exact ⟨exec_decSym_marker hc hopen .mark1, exec_decSym_marker hc hopen .mark2⟩

end Sys2Proof.Machine
end

section
namespace Sys2Proof.Machine

/-! The decoder's transactions one by one (R171 to R173): the state each leaves when it fires. -/

variable {s : State} {c : Config} {d : Decoder}

/-- The six low bits move up and the value takes their place (R30, R55). -/
theorem shiftIn_eq_append (acc : Byte) (v : Value) : shiftIn acc v = acc.extractLsb' 0 6 ++ v := by
  apply BitVec.eq_of_toNat_eq
  rw [shiftIn_toNat, append_value_toNat, BitVec.extractLsb'_toNat, Nat.shiftRight_zero]
  omega

theorem consumeSymbol_uncounted_idle (hidle : c.idleCounts = false) : consumeSymbol c d.prev d = d := by
  simp [consumeSymbol, observeTransition, actOn, hidle]

/-- `Closed` that is no repeat ends the frame before any count is taken (R171, R177). -/
theorem consumeSymbol_closed (c : Config) (hne : d.prev ≠ .closed) :
    consumeSymbol c .closed d = afterFrameEnd .closed .errChannelClosed d.acc d.nslots := by
  rw [consumeSymbol, observeTransition, if_neg hne.symm]
  exact finish_eq_afterFrameEnd ..

theorem exec_decFlush_open (hopen : s.dec.resValid = false) :
    exec .decFlush s = .next (afterFiring .decFlush none s.enc (flushFrame s.dec) s) :=
  exec_enabled (i := .decFlush) (decOpen_iff.mpr hopen)

theorem exec_decSetPrev_open (hopen : s.dec.resValid = false) (k : Code) :
    exec (.decSetPrev k) s =
      .next (afterFiring (.decSetPrev k) none s.enc (loadDecPrev (sym s.config.symbolCode k) s.dec) s) :=
  exec_enabled (i := .decSetPrev k) (decOpen_iff.mpr hopen)

theorem exec_decResult_ready (hres : s.dec.resValid = true) :
    exec .decResult s =
      .next (afterFiring .decResult
        (some (.resultWord (resultWord s.dec.resStatus s.dec.resNslots s.dec.resByte))) s.enc
        (releaseResult s.dec) s) :=
  exec_enabled (i := .decResult) hres

/-- Settles O33: the repeat is consumed as an observation that does nothing. -/
theorem decSymIdleChangesNothing : Obligations.DecSymIdleChangesNothing := by
  unfold Obligations.DecSymIdleChangesNothing
  intro s hc hidle hopen
  rw [exec_decSym_consumes hc hopen, consumeSymbol_uncounted_idle hidle]

/-- Settles O34: the repeat is a counted transition with the frame's own byte and slots. -/
theorem decSymIdleCounted : Obligations.DecSymIdleCounted := by
  unfold Obligations.DecSymIdleCounted
  intro s hc hidle hopen
  rw [exec_decSym_consumes hc hopen, consumeSymbol_counted_idle hidle]
  refine ⟨fun hbelow => ?_, fun hat => ?_⟩
  · rw [countTransition_below hbelow.ne]
  · rw [countTransition_at hat, finish_eq_afterFrameEnd]

/-- Settles O35: the observation is `ChannelDown`, which reads no count. -/
theorem decSymChannelDown : Obligations.DecSymChannelDown := by
  unfold Obligations.DecSymChannelDown
  intro s hc hopen hne
  rw [exec_decSym_consumes hc hopen, consumeSymbol_closed s.config hne]

/-- Settles O37: a data symbol is a counted transition that brings its value and a slot. -/
theorem decSymDataShiftsIn : Obligations.DecSymDataShiftsIn := by
  unfold Obligations.DecSymDataShiftsIn
  intro s x hc hopen hx hne
  rw [exec_decSym_consumes hc hopen, consumeSymbol_data hc hx hne, shiftIn_eq_append]
  refine ⟨fun hbelow => ?_, fun hat => ?_⟩
  · rw [countTransition_below (d := { s.dec with prev := x }) hbelow.ne]
  · rw [countTransition_at (d := { s.dec with prev := x }) hat, finish_eq_afterFrameEnd]

/-- Settles O38: the flush writes registers only where the count is not 0. -/
theorem decFlushEndsOpenFrame : Obligations.DecFlushEndsOpenFrame := by
  unfold Obligations.DecFlushEndsOpenFrame
  intro s hopen
  rw [exec_decFlush_open hopen]
  refine ⟨fun hcount => ?_, fun hcount => ?_⟩
  · rw [flushFrame_open hcount, finish_eq_afterFrameEnd]
  · rw [flushFrame_between hcount]

/-- Settles O39: the code loads its symbol, and the frame registers are cleared. -/
theorem decSetPrevStartsFrame : Obligations.DecSetPrevStartsFrame := by
  unfold Obligations.DecSetPrevStartsFrame
  intro s x hc hopen
  rw [exec_decSetPrev_open hopen, sym_code hc, loadDecPrev, clearFrame]

/-- A symbol that makes a result wait has ended the frame (R170, R171). -/
theorem consumeSymbol_ends (hopen : d.resValid = false) {x : Symbol} (hset : (consumeSymbol c x d).resValid = true) :
    ∃ st a n, consumeSymbol c x d = afterFrameEnd x st a n := by
  obtain ⟨-, ⟨hkept, -⟩ | hends⟩ := consumeSymbol_next c x d
  · rw [hkept, hopen] at hset
    cases hset
  · exact hends

/-- A flush that makes a result wait has ended an open frame (R172). -/
theorem flushFrame_ends (hopen : d.resValid = false) (hset : (flushFrame d).resValid = true) :
    d.count ≠ 0#4 ∧ flushFrame d = afterFrameEnd d.prev .errFraming d.acc d.nslots := by
  have hcount : d.count ≠ 0#4 := fun hzero => by
    rw [flushFrame_between hzero, hopen] at hset
    cases hset
  exact ⟨hcount, flushFrame_open hcount⟩

/-- Settles O41: of the two transactions that can make a result wait, each leaves the registers of an ended frame. -/
theorem frameEndClearsFrame : Obligations.FrameEndClearsFrame := by
  unfold Obligations.FrameEndClearsFrame
  intro i s t hx hopen hset
  obtain ⟨-, rfl⟩ | ⟨-, rfl⟩ := exec_next hx
  · obtain ⟨k, rfl⟩ | rfl := decSym_or_flush_of_sets_resValid hopen hset
    · obtain ⟨st, a, n, hends⟩ := consumeSymbol_ends hopen hset
      have hdec : (firedState (.decSym k) s).dec = afterFrameEnd _ st a n := hends
      rw [hdec]
      exact ⟨rfl, rfl, rfl, rfl, rfl, .inl ⟨k, rfl, rfl⟩⟩
    · obtain ⟨hcount, hends⟩ := flushFrame_ends hopen hset
      have hdec : (firedState .decFlush s).dec = afterFrameEnd _ _ _ _ := hends
      rw [hdec]
      exact ⟨rfl, rfl, rfl, rfl, rfl, .inr ⟨rfl, rfl, hcount⟩⟩
  · rw [State.hold_dec, hopen] at hset
    cases hset

/-- Against a channel state with offset 0 a data symbol is its index (R114). -/
theorem dval_of_offset_zero {x p : Symbol} (hx : isData x = true) (hp : offset p = 0) :
    dval x p = BitVec.ofNat 2 (indexOf x % 4) := by
  rw [dval, if_pos hx, hp, if_pos (Nat.zero_le _), Nat.sub_zero]

theorem packValues_append_one (vs : List Value) (v : Value) : packValues (vs ++ [v]) = shiftIn (packValues vs) v := by
  rw [packValues, List.foldl_append]
  rfl

/-- Settles O45: a waiting result leaves an empty frame, so the symbol is the first slot of the next one. -/
theorem decodingResumesAfterResult : Obligations.DecodingResumesAfterResult := by
  unfold Obligations.DecodingResumesAfterResult
  intro s x hinv hres hx hne hbudget
  obtain ⟨-, -, hc⟩ := Config.wellFormed_iff.mp hinv.config
  have hcount := hinv.dec.res_empty hres
  obtain ⟨hacc, hslots⟩ := hinv.dec.empty_frame hcount
  have hbelow : s.dec.count.toNat + 1 ≠ s.config.decBudget := by rw [hcount, BitVec.toNat_ofNat]; omega
  have hdec : consumeSymbol s.config x (releaseResult s.dec) =
      { s.dec with prev := x, acc := 0b000000#6 ++ dval x s.dec.prev, nslots := 1#4, count := 1#4, resValid := false } := by
    rw [consumeSymbol_data (d := releaseResult s.dec) hc hx hne,
      countTransition_below (d := { releaseResult s.dec with prev := x }) hbelow]
    simp only [releaseResult, hacc, hslots, hcount, shiftIn_eq_append]
    rfl
  refine ⟨_, _, exec_decResult_ready hres, exec_decSym_consumes (s := afterFiring _ _ _ _ s) hc rfl x, ?_⟩
  simp only [afterFiring, hdec, true_and]
  exact fun hprev => by rw [dval_of_offset_zero hx (by rw [hprev]; rfl)]

end Sys2Proof.Machine
end

section
namespace Sys2Proof.Machine

/-! The frame so far (R175): the registers hold what `decode_byte` holds, and each `DEC_SYM` is one turn of its loop. -/

/-- The frame registers hold a frame of `counted` transitions with these data values, below the budget; no result waits. -/
structure FrameSoFar (c : Config) (counted : Nat) (vs : List Value) (d : Decoder) : Prop where
  no_result : d.resValid = false
  count : d.count.toNat = counted
  below : counted < c.decBudget
  acc : d.acc = packValues vs
  nslots : d.nslots = BitVec.ofNat 4 vs.length

/-- One turn of the loop of `decode_byte` on the symbol `x`, and the registers `d` after it: both end the frame with the same
status and values, or both go on with the same frame. -/
def TurnAgrees (c : Config) (prev : Symbol) (counted : Nat) (vs : List Value) (x : Symbol) (d : Decoder) : Prop :=
  (∃ st ws, (∀ used rest, scanFrame c prev counted vs used (x :: rest) = .ended st ws (used + 1)) ∧
    d = afterFrameEnd x st (packValues ws) (BitVec.ofNat 4 ws.length)) ∨
  (∃ counted' ws, (∀ used rest,
      scanFrame c prev counted vs used (x :: rest) = scanFrame c x counted' ws (used + 1) rest) ∧
    FrameSoFar c counted' ws d)

variable {c : Config} {counted : Nat} {vs : List Value} {d : Decoder} {prev x : Symbol} {s : State}

/-- Between frames the registers hold an empty frame (R38). -/
theorem frameSoFar_of_between (hinv : MachineInv s) (hopen : s.dec.resValid = false) (hcount : s.dec.count = 0#4) :
    FrameSoFar s.config 0 [] s.dec := by
  obtain ⟨hacc, hslots⟩ := hinv.dec.empty_frame hcount
  exact ⟨hopen, by rw [hcount]; rfl, (Config.wellFormed_iff.mp hinv.config).1, hacc, hslots⟩

/-- The frame registers do not hold `dec_prev`. -/
theorem FrameSoFar.set_prev (h : FrameSoFar c counted vs d) (x : Symbol) :
    FrameSoFar c counted vs { d with prev := x } :=
  ⟨h.no_result, h.count, h.below, h.acc, h.nslots⟩

theorem FrameSoFar.countTransition_at (h : FrameSoFar c counted vs d) (hat : counted + 1 = c.decBudget) (a : Byte)
    (n : BitVec 4) : countTransition c.decBudget a n d = afterFrameEnd d.prev .errFraming a n :=
  Machine.countTransition_at (by rw [h.count, hat])

/-- Below the budget a counted transition goes on with the frame, and no counter wraps (R6). -/
theorem FrameSoFar.countTransition_below (h : FrameSoFar c counted vs d) (hb : c.decBudget ≤ 15)
    (hbelow : counted + 1 < c.decBudget) (ws : List Value) :
    FrameSoFar c (counted + 1) ws (countTransition c.decBudget (packValues ws) (BitVec.ofNat 4 ws.length) d) := by
  have hcount := h.count
  rw [Machine.countTransition_below (by omega)]
  exact ⟨h.no_result, by simp only; bv_omega, hbelow, rfl, rfl⟩

/-- A data symbol adds its value to the frame as a counted transition. -/
theorem FrameSoFar.consumeSymbol_data (h : FrameSoFar c counted vs d) (hc : c.symbolCode.wellFormed = true)
    (hx : isData x = true) (hne : x ≠ d.prev) :
    consumeSymbol c x d =
      countTransition c.decBudget (packValues (vs ++ [dval x d.prev]))
        (BitVec.ofNat 4 (vs ++ [dval x d.prev]).length) { d with prev := x } := by
  rw [Machine.consumeSymbol_data hc hx hne, packValues_append_one, h.acc, h.nslots, List.length_append,
    BitVec.ofNat_add]
  rfl

/-- A counted repeat is a counted transition that leaves the values of the frame. -/
theorem FrameSoFar.consumeSymbol_counted_idle (h : FrameSoFar c counted vs d) (hidle : c.idleCounts = true) :
    consumeSymbol c d.prev d = countTransition c.decBudget (packValues vs) (BitVec.ofNat 4 vs.length) d := by
  rw [Machine.consumeSymbol_counted_idle hidle, h.acc, h.nslots]

/-- A counted transition tests the budget as the loop of `decode_byte` does. -/
theorem FrameSoFar.turnAgrees_counted {ws : List Value} (h : FrameSoFar c counted vs d) (hb : c.decBudget ≤ 15)
    (hprev : d.prev = x)
    (hscan : ∀ used rest, scanFrame c prev counted vs used (x :: rest) =
      if counted + 1 = c.decBudget then .ended .errFraming ws (used + 1)
      else scanFrame c x (counted + 1) ws (used + 1) rest) :
    TurnAgrees c prev counted vs x (countTransition c.decBudget (packValues ws) (BitVec.ofNat 4 ws.length) d) := by
  by_cases hat : counted + 1 = c.decBudget
  · exact .inl ⟨.errFraming, ws, fun used rest => by rw [hscan, if_pos hat],
      by rw [h.countTransition_at hat, hprev]⟩
  · have hbelow := h.below
    exact .inr ⟨counted + 1, ws, fun used rest => by rw [hscan, if_neg hat],
      h.countTransition_below hb (by omega) ws⟩

theorem FrameSoFar.turnAgrees_repeat (h : FrameSoFar c counted vs d) (hb : c.decBudget ≤ 15) :
    TurnAgrees c d.prev counted vs d.prev (consumeSymbol c d.prev d) := by
  cases hidle : c.idleCounts with
  | false =>
    rw [consumeSymbol_uncounted_idle hidle]
    exact .inr ⟨counted, vs, fun used rest => by simp [scanFrame, hidle], h⟩
  | true =>
    rw [h.consumeSymbol_counted_idle hidle]
    exact h.turnAgrees_counted hb rfl fun used rest => by simp [scanFrame, hidle]

theorem scanFrame_data (hx : isData x = true) (hne : x ≠ prev) (used : Nat) (rest : List Symbol) :
    scanFrame c prev counted vs used (x :: rest) =
      if counted + 1 = c.decBudget then .ended .errFraming (vs ++ [dval x prev]) (used + 1)
      else scanFrame c x (counted + 1) (vs ++ [dval x prev]) (used + 1) rest := by
  rw [scanFrame, if_neg hne]
  cases x with
  | closed | mark1 | mark2 => cases hx
  | _ => rfl

theorem FrameSoFar.turnAgrees_data (h : FrameSoFar c counted vs d) (hc : c.symbolCode.wellFormed = true)
    (hb : c.decBudget ≤ 15) (hx : isData x = true) (hne : x ≠ d.prev) :
    TurnAgrees c d.prev counted vs x (consumeSymbol c x d) := by
  rw [h.consumeSymbol_data hc hx hne]
  exact (h.set_prev x).turnAgrees_counted hb rfl (scanFrame_data hx hne)

/-- A marker ends the frame in both with its OK status. -/
theorem FrameSoFar.turnAgrees_marker (h : FrameSoFar c counted vs d) (m : Marker) (hne : markerSymbol m ≠ d.prev) :
    TurnAgrees c d.prev counted vs (markerSymbol m) (consumeSymbol c (markerSymbol m) d) := by
  refine .inl ⟨okStatus m, vs, fun used rest => ?_, ?_⟩
  · rw [scanFrame, if_neg hne]
    cases m <;> rfl
  · rw [consumeSymbol_marker c m hne.symm, h.acc, h.nslots]

theorem FrameSoFar.turnAgrees_closed (h : FrameSoFar c counted vs d) (hne : .closed ≠ d.prev) :
    TurnAgrees c d.prev counted vs .closed (consumeSymbol c .closed d) := by
  refine .inl ⟨.errChannelClosed, vs, fun used rest => ?_, ?_⟩
  · rw [scanFrame, if_neg hne]
    rfl
  · rw [consumeSymbol_closed c hne.symm, h.acc, h.nslots]

/-- Every `DEC_SYM` of a frame is one turn of the loop of `decode_byte` (R171, R175). -/
theorem FrameSoFar.turnAgrees (h : FrameSoFar c counted vs d) (hc : c.symbolCode.wellFormed = true)
    (hb : c.decBudget ≤ 15) (x : Symbol) : TurnAgrees c d.prev counted vs x (consumeSymbol c x d) := by
  by_cases hrepeat : x = d.prev
  · subst hrepeat
    exact h.turnAgrees_repeat hb
  · cases hx : isData x with
    | true => exact h.turnAgrees_data hc hb hx hrepeat
    | false =>
      obtain rfl | rfl | rfl := isData_eq_false_iff.mp hx
      · exact h.turnAgrees_closed hrepeat
      · exact h.turnAgrees_marker .mark1 hrepeat
      · exact h.turnAgrees_marker .mark2 hrepeat

end Sys2Proof.Machine
end

section
namespace Sys2Proof.Machine

/-! `DEC_SYM` after `DEC_SYM` (R175): the turns of `decode_byte` one after another, until it ends or the symbols do. -/

variable {symbols : List Symbol} {s t : State} {counted used total : Nat} {vs ws : List Value} {st : Status}

/-- One `DEC_SYM` for each symbol. -/
def decSyms (c : SymbolCode) (symbols : List Symbol) : List Instr := symbols.map fun x => .decSym (code c x)

/-- The state after the symbol `x` was consumed. -/
def afterSymbol (s : State) (x : Symbol) : State :=
  afterFiring (.decSym (code s.config.symbolCode x)) none s.enc (consumeSymbol s.config x s.dec) s

@[simp] theorem afterSymbol_config (x : Symbol) : (afterSymbol s x).config = s.config := rfl
@[simp] theorem afterSymbol_dec (x : Symbol) : (afterSymbol s x).dec = consumeSymbol s.config x s.dec := rfl
@[simp] theorem afterSymbol_waiting (x : Symbol) : (afterSymbol s x).host.waiting = s.host.waiting := rfl
@[simp] theorem afterSymbol_prev (x : Symbol) : (afterSymbol s x).dec.prev = x := (consumeSymbol_next _ x _).1

theorem runAll_decSyms_cons (hc : s.config.symbolCode.wellFormed = true) (hopen : s.dec.resValid = false) (x : Symbol)
    (rest : List Symbol) :
    runAll (decSyms s.config.symbolCode (x :: rest)) s =
      runAll (decSyms (afterSymbol s x).config.symbolCode rest) (afterSymbol s x) :=
  runAll_cons (exec_decSym_consumes hc hopen x)

/-- The first `n` symbols leave no result, and every offer fires. -/
def NoResultAfter (symbols : List Symbol) (n : Nat) (s : State) : Prop :=
  ∃ t, runAll (decSyms s.config.symbolCode (symbols.take n)) s = .next t ∧ t.dec.resValid = false ∧
    t.host.waiting = s.host.waiting

theorem noResultAfter_zero (hopen : s.dec.resValid = false) : NoResultAfter symbols 0 s := ⟨s, rfl, hopen, rfl⟩

theorem noResultAfter_succ {n : Nat} {x : Symbol} (hc : s.config.symbolCode.wellFormed = true)
    (hopen : s.dec.resValid = false) (h : NoResultAfter symbols n (afterSymbol s x)) :
    NoResultAfter (x :: symbols) (n + 1) s := by
  obtain ⟨t, hrun, hres, hwait⟩ := h
  exact ⟨t, by rw [List.take_succ_cons, runAll_decSyms_cons hc hopen, hrun], hres, hwait⟩

/-- The first `n` symbols leave this result. -/
def ResultAfter (symbols : List Symbol) (n : Nat) (st : Status) (ws : List Value) (s : State) : Prop :=
  ∃ t x, runAll (decSyms s.config.symbolCode (symbols.take n)) s = .next t ∧
    t.dec = afterFrameEnd x st (packValues ws) (BitVec.ofNat 4 ws.length)

/-- Where `decode_byte` ends within the symbols, the result waits after as many `DEC_SYM` as it read, and not before. -/
theorem runAll_decSyms_of_ended (hwf : s.config.wellFormed = true) (h : FrameSoFar s.config counted vs s.dec)
    (hscan : scanFrame s.config s.dec.prev counted vs used symbols = .ended st ws total) :
    ∃ n, total = used + n ∧ (∀ k < n, NoResultAfter symbols k s) ∧ ResultAfter symbols n st ws s := by
  obtain ⟨-, hb, hc⟩ := Config.wellFormed_iff.mp hwf
  induction symbols generalizing s counted vs used with
  | nil => cases hscan
  | cons x rest ih =>
    obtain ⟨st', ws', hturn, hend⟩ | ⟨counted', ws', hturn, hframe⟩ := h.turnAgrees hc hb x
    · rw [hturn] at hscan
      cases hscan
      refine ⟨1, rfl, fun k hk => ?_, afterSymbol s x, x, ?_, hend⟩
      · obtain rfl : k = 0 := by omega
        exact noResultAfter_zero h.no_result
      · exact runAll_decSyms_cons hc h.no_result x []
    · rw [hturn, ← afterSymbol_prev (s := s) x] at hscan
      obtain ⟨n, htotal, hbefore, t, y, hrun, hend⟩ := ih (s := afterSymbol s x) hwf hframe hscan hb hc
      refine ⟨n + 1, by omega, fun k hk => ?_, t, y, ?_, hend⟩
      · cases k with
        | zero => exact noResultAfter_zero h.no_result
        | succ k => exact noResultAfter_succ hc h.no_result (hbefore k (by omega))
      · rw [List.take_succ_cons, runAll_decSyms_cons hc h.no_result, hrun]

/-- Where the symbols end first, the registers hold the unfinished frame. -/
theorem runAll_decSyms_of_unfinished (hwf : s.config.wellFormed = true) (h : FrameSoFar s.config counted vs s.dec)
    (hscan : scanFrame s.config s.dec.prev counted vs used symbols = .unfinished total ws) :
    ∃ t, runAll (decSyms s.config.symbolCode symbols) s = .next t ∧ FrameSoFar s.config total ws t.dec := by
  obtain ⟨-, hb, hc⟩ := Config.wellFormed_iff.mp hwf
  induction symbols generalizing s counted vs used with
  | nil => cases hscan; exact ⟨s, rfl, h⟩
  | cons x rest ih =>
    obtain ⟨st', ws', hturn, -⟩ | ⟨counted', ws', hturn, hframe⟩ := h.turnAgrees hc hb x
    · rw [hturn] at hscan
      cases hscan
    · rw [hturn, ← afterSymbol_prev (s := s) x] at hscan
      obtain ⟨t, hrun, hend⟩ := ih (s := afterSymbol s x) hwf hframe hscan hb hc
      exact ⟨t, by rw [runAll_decSyms_cons hc h.no_result, hrun], hend⟩

/-- A waiting result is returned as its word (R78, R174). -/
theorem exec_decResult_of_afterFrameEnd {x : Symbol} {a : Byte} {n : BitVec 4} (h : t.dec = afterFrameEnd x st a n) :
    ∃ u, exec .decResult t = .next u ∧ lastReturned u = some (.resultWord (resultWord st n a)) :=
  ⟨_, exec_decResult_ready (by rw [h]; rfl), by rw [h]; rfl⟩

/-- A flush ends an unfinished frame with `ERR_FRAMING` whenever a transition was counted (R172). -/
theorem exec_decFlush_of_frameSoFar {c : Config} (h : FrameSoFar c counted vs t.dec) :
    ∃ u, exec .decFlush t = .next u ∧ (counted = 0 → u.dec = t.dec) ∧
      (counted ≠ 0 → u.dec = afterFrameEnd t.dec.prev .errFraming (packValues vs) (BitVec.ofNat 4 vs.length)) := by
  have hcount := h.count
  refine ⟨_, exec_decFlush_open h.no_result, fun hzero => ?_, fun hpos => ?_⟩
  · exact flushFrame_between (by bv_omega)
  · have hne : t.dec.count ≠ 0#4 := fun hzero => by rw [hzero] at hcount; exact hpos hcount.symm
    rw [← h.acc, ← h.nslots]
    exact flushFrame_open hne

/-- Settles O46: an induction over the symbols, each `DEC_SYM` being one turn of the loop of `decode_byte`. -/
theorem decodeByteCorrespondence : Obligations.DecodeByteCorrespondence := by
  unfold Obligations.DecodeByteCorrespondence
  intro s symbols hinv hopen hcount
  have hframe := frameSoFar_of_between hinv hopen hcount
  cases hscan : decodeByte s.config s.dec.prev symbols with
  | ended st vs used =>
    obtain ⟨n, hused, hbefore, t, x, hrun, hend⟩ := runAll_decSyms_of_ended hinv.config hframe hscan
    obtain rfl : used = n := by omega
    obtain ⟨u, hresult, hword⟩ := exec_decResult_of_afterFrameEnd hend
    exact ⟨hbefore, t, u, hrun, by rw [hend]; rfl, hresult, hword⟩
  | unfinished counted vs =>
    obtain ⟨t, hrun, hunfinished⟩ := runAll_decSyms_of_unfinished hinv.config hframe hscan
    obtain ⟨u, hflush, hempty, hended⟩ := exec_decFlush_of_frameSoFar hunfinished
    exact ⟨t, u, hrun, hunfinished.no_result, hflush, hempty,
      fun hpos => exec_decResult_of_afterFrameEnd (hended hpos)⟩

end Sys2Proof.Machine
end

section
namespace Sys2Proof.Machine

/-! The loop (R176): the host carries each symbol from the encoder to the decoder, and takes each result as it appears. -/

/-- How many of `n` repeats of the channel state are counted as transitions (R171, R203). -/
def countedRepeats (c : Config) (n : Nat) : Nat := if c.idleCounts then n else 0

/-- From `s` to `t` the host was given these result words, the newest first; the offers held and the parameters stay. -/
structure Delivers (words : List (BitVec 14)) (s t : State) : Prop where
  config : t.config = s.config
  waiting : t.host.waiting = s.host.waiting
  results : resultWords t.host.trace = words ++ resultWords s.host.trace

/-- A frame is being carried: the encoder holds what is left of the byte, the decoder the values carried so far, and both the
channel state, which is a data symbol once the first symbol was handed out. -/
structure Carrying (c : Config) (shift : Byte) (phase : BitVec 3) (counted : Nat) (vs : List Value) (s : State) : Prop where
  config : s.config = c
  enc : s.enc = { prev := s.dec.prev, shift := shift, phase := phase, busy := true }
  prev_data : phase ≠ 0#3 → isData s.dec.prev = true
  frame : FrameSoFar c counted vs s.dec

/-- The link is between frames, with this many repeats of the last symbol carried since then. -/
structure LinkIdle (c : Config) (repeats : Nat) (s : State) : Prop where
  config : s.config = c
  prev : s.enc.prev = s.dec.prev
  idle : s.enc.busy = false
  frame : FrameSoFar c (countedRepeats c repeats) [] s.dec

/-- From `s` to `t` the host gave the decoder symbols up to `p`: the frame so far is `vs`, and the encoder did nothing. -/
structure Fed (p : Symbol) (counted : Nat) (vs : List Value) (words : List (BitVec 14)) (s t : State) : Prop where
  enc : t.enc = s.enc
  prev : t.dec.prev = p
  frame : FrameSoFar s.config counted vs t.dec
  delivers : Delivers words s t

variable {c : Config} {d : Decoder} {counted extra n : Nat} {vs : List Value} {s t u : State} {k : Code} {b shift : Byte}
  {phase : BitVec 3} {words newer : List (BitVec 14)}

@[simp] theorem countedRepeats_zero : countedRepeats c 0 = 0 := by simp [countedRepeats]

theorem countedRepeats_add (m n : Nat) : countedRepeats c (m + n) = countedRepeats c m + countedRepeats c n := by
  unfold countedRepeats
  split <;> rfl

theorem countedRepeats_succ : countedRepeats c (n + 1) = countedRepeats c 1 + countedRepeats c n := by
  rw [Nat.add_comm, countedRepeats_add]

theorem Delivers.refl (s : State) : Delivers [] s s := ⟨rfl, rfl, rfl⟩

theorem Delivers.trans (h : Delivers words s t) (h' : Delivers newer t u) : Delivers (newer ++ words) s u :=
  ⟨h'.config.trans h.config, h'.waiting.trans h.waiting, by rw [h'.results, h.results, List.append_assoc]⟩

theorem delivers_encSym (e : Encoder) : Delivers [] s (afterFiring .encSym (some (.symbolCode k)) e s.dec s) :=
  ⟨rfl, rfl, rfl⟩

/-- What follows a consumed symbol follows the state before it: the symbol itself changes the decoder alone. -/
theorem Fed.of_afterSymbol {p x : Symbol} (h : Fed p counted vs words (afterSymbol s x) t) :
    Fed p counted vs words s t :=
  ⟨h.enc, h.prev, h.frame, h.delivers.config, h.delivers.waiting, h.delivers.results⟩

theorem Fed.trans {p q : Symbol} {counted' : Nat} {vs' : List Value} (h : Fed p counted vs words s t)
    (h' : Fed q counted' vs' newer t u) : Fed q counted' vs' (newer ++ words) s u :=
  ⟨h'.enc.trans h.enc, h'.prev, h.delivers.config ▸ h'.frame, h.delivers.trans h'.delivers⟩

/-- Taking the result of an ended frame gives its word to the host and leaves an empty frame. -/
theorem exec_decResult_fed {x : Symbol} {st : Status} {a : Byte} {m : BitVec 4} (hwf : t.config.wellFormed = true)
    (hend : t.dec = afterFrameEnd x st a m) :
    ∃ u, exec .decResult t = .next u ∧ Fed x 0 [] [resultWord st m a] t u := by
  have hpos := (Config.wellFormed_iff.mp hwf).1
  refine ⟨_, exec_decResult_ready (by rw [hend]; rfl), ?_⟩
  rw [hend]
  exact ⟨rfl, rfl, ⟨rfl, rfl, hpos, rfl, rfl⟩, rfl, rfl, rfl⟩

/-! ### One symbol given to the decoder -/

/-- A symbol that leaves no result: the host goes on with the next one. -/
theorem feedSymbol_of_open (hx : exec (.decSym k) s = .next t) (hopen : t.dec.resValid = false) :
    feedSymbol k (n + 1) s = feedSymbol k n t := by
  rw [feedSymbol, hx, andThen_of_next, takeResult, if_neg (by simp [hopen]), andThen_of_next]

/-- A symbol that leaves a result: the host takes it before the next one. -/
theorem feedSymbol_of_result (hx : exec (.decSym k) s = .next t) (hres : t.dec.resValid = true)
    (htake : exec .decResult t = .next u) : feedSymbol k (n + 1) s = feedSymbol k n u := by
  rw [feedSymbol, hx, andThen_of_next, takeResult, if_pos hres, htake, andThen_of_next]

/-- Below the budget a repeat goes on with the frame, counted or not. -/
theorem FrameSoFar.consume_repeat (h : FrameSoFar c counted vs d) (hb : c.decBudget ≤ 15)
    (hfit : counted + countedRepeats c 1 < c.decBudget) :
    FrameSoFar c (counted + countedRepeats c 1) vs (consumeSymbol c d.prev d) := by
  unfold countedRepeats at hfit ⊢
  cases hidle : c.idleCounts with
  | false =>
    rw [consumeSymbol_uncounted_idle hidle]
    exact h
  | true =>
    rw [hidle] at hfit
    rw [h.consumeSymbol_counted_idle hidle]
    exact h.countTransition_below hb hfit vs

/-- Below the budget a data symbol handed out against the decoder's channel state adds its value to the frame. -/
theorem FrameSoFar.consume_emit (h : FrameSoFar c counted vs d) (hwf : c.wellFormed = true) (v : Value)
    (hfit : counted + 1 < c.decBudget) :
    FrameSoFar c (counted + 1) (vs ++ [v]) (consumeSymbol c (emit v d.prev) d) := by
  obtain ⟨-, hb, hc⟩ := Config.wellFormed_iff.mp hwf
  rw [h.consumeSymbol_data hc (isData_emit v d.prev) (emit_ne v d.prev), dval_emit]
  exact (h.set_prev _).countTransition_below hb hfit _

/-- Repeats of the channel state that stay below the budget leave the frame's values, the encoder and the results. -/
theorem feedSymbol_repeats (hwf : s.config.wellFormed = true) (h : FrameSoFar s.config counted vs s.dec)
    (hfit : counted + countedRepeats s.config n < s.config.decBudget) :
    ∃ t, feedSymbol (code s.config.symbolCode s.dec.prev) n s = .next t ∧
      Fed s.dec.prev (counted + countedRepeats s.config n) vs [] s t := by
  obtain ⟨-, hb, hc⟩ := Config.wellFormed_iff.mp hwf
  induction n generalizing s counted with
  | zero => exact ⟨s, rfl, rfl, rfl, by simpa using h, .refl s⟩
  | succ n ih =>
    rw [countedRepeats_succ, ← Nat.add_assoc] at hfit ⊢
    have hnext := h.consume_repeat hb (by omega)
    have hfeed := feedSymbol_of_open (n := n) (exec_decSym_consumes hc h.no_result s.dec.prev) hnext.no_result
    obtain ⟨t, hrest, hfed⟩ := ih (s := afterSymbol s s.dec.prev) hwf hnext hfit hb hc
    rw [afterSymbol_prev] at hrest hfed
    exact ⟨t, hfeed.trans hrest, hfed.of_afterSymbol⟩

/-- A data symbol and its repeats add one value to the frame. -/
theorem feedSymbol_emit (hwf : s.config.wellFormed = true) (h : FrameSoFar s.config counted vs s.dec) (v : Value)
    (hfit : counted + 1 + countedRepeats s.config extra < s.config.decBudget) :
    ∃ t, feedSymbol (code s.config.symbolCode (emit v s.dec.prev)) (extra + 1) s = .next t ∧
      Fed (emit v s.dec.prev) (counted + 1 + countedRepeats s.config extra) (vs ++ [v]) [] s t := by
  obtain ⟨-, -, hc⟩ := Config.wellFormed_iff.mp hwf
  have hnext := h.consume_emit hwf v (by omega)
  have hfeed := feedSymbol_of_open (n := extra) (exec_decSym_consumes hc h.no_result (emit v s.dec.prev)) hnext.no_result
  obtain ⟨t, hrest, hfed⟩ := feedSymbol_repeats (s := afterSymbol s (emit v s.dec.prev)) hwf hnext hfit
  rw [afterSymbol_prev] at hrest hfed
  exact ⟨t, hfeed.trans hrest, hfed.of_afterSymbol⟩

/-- A marker ends the frame, its result is taken, and its repeats fall into the next frame. -/
theorem feedSymbol_marker (hwf : s.config.wellFormed = true) (h : FrameSoFar s.config counted vs s.dec) (m : Marker)
    (hne : s.dec.prev ≠ markerSymbol m) (hfit : countedRepeats s.config extra < s.config.decBudget) :
    ∃ t, feedSymbol (code s.config.symbolCode (markerSymbol m)) (extra + 1) s = .next t ∧
      Fed (markerSymbol m) (countedRepeats s.config extra) []
        [resultWord (okStatus m) (BitVec.ofNat 4 vs.length) (packValues vs)] s t := by
  obtain ⟨-, -, hc⟩ := Config.wellFormed_iff.mp hwf
  have hend := consumeSymbol_marker s.config m hne
  rw [h.acc, h.nslots] at hend
  obtain ⟨u, htake, htaken⟩ := exec_decResult_fed (t := afterSymbol s (markerSymbol m)) hwf hend
  have hconfig : u.config = s.config := htaken.delivers.config
  have hfeed := feedSymbol_of_result (n := extra) (exec_decSym_consumes hc h.no_result (markerSymbol m))
    (congrArg Decoder.resValid hend) htake
  obtain ⟨t, hrest, hfed⟩ := feedSymbol_repeats (n := extra) (hconfig ▸ hwf) (hconfig ▸ htaken.frame)
    (by rwa [Nat.zero_add, hconfig])
  rw [htaken.prev, hconfig] at hrest
  rw [htaken.prev, hconfig, Nat.zero_add] at hfed
  exact ⟨t, hfeed.trans hrest, (htaken.trans hfed).of_afterSymbol⟩

/-! ### One symbol carried -/

theorem carrySymbol_of_returned (hx : exec .encSym s = .next t) (hk : lastReturned t = some (.symbolCode k)) :
    carrySymbol extra s = feedSymbol k (extra + 1) t := by
  rw [carrySymbol, hx, andThen_of_next, hk]

/-- Carrying a data symbol moves the top chunk of the shift register over to the decoder's frame. -/
theorem Carrying.carrySymbol_data (h : Carrying c shift phase counted vs s) (hwf : c.wellFormed = true)
    (hphase : phase < 4#3) (hfit : counted + 1 + countedRepeats c extra < c.decBudget) :
    ∃ t, carrySymbol extra s = .next t ∧
      Carrying c (shift <<< 2) (phase + 1#3) (counted + 1 + countedRepeats c extra) (vs ++ [topChunk shift]) t ∧
      Delivers [] s t := by
  obtain rfl := h.config
  obtain ⟨-, -, hc⟩ := Config.wellFormed_iff.mp hwf
  have hout := exec_encSym_data hc (by rw [h.enc]) (by rw [h.enc]; exact hphase)
  rw [h.enc] at hout
  obtain ⟨t, hfeed, hfed⟩ := feedSymbol_emit (s := afterFiring .encSym _ _ s.dec s) hwf h.frame (topChunk shift) hfit
  have hcarry := (carrySymbol_of_returned hout rfl).trans hfeed
  have hdel := (delivers_encSym _).trans hfed.delivers
  refine ⟨t, hcarry, ⟨hdel.config, ?_, fun _ => ?_, hfed.frame⟩, hdel⟩
  · rw [hfed.enc, hfed.prev]; rfl
  · rw [hfed.prev]; exact isData_emit _ _

/-- The marker follows a data symbol, so it is no repeat. -/
theorem Carrying.prev_ne_marker (h : Carrying c shift 4#3 counted vs s) (m : Marker) : s.dec.prev ≠ markerSymbol m := by
  intro heq
  have hdata := h.prev_data (by decide)
  rw [heq, isData_markerSymbol] at hdata
  cases hdata

/-- Carrying the marker brings the result of the frame and leaves the link between frames. -/
theorem Carrying.carrySymbol_marker (h : Carrying c shift 4#3 counted vs s) (hwf : c.wellFormed = true)
    (hfit : countedRepeats c extra < c.decBudget) :
    ∃ t, carrySymbol extra s = .next t ∧ LinkIdle c extra t ∧
      Delivers [resultWord (okStatus c.encMarker) (BitVec.ofNat 4 vs.length) (packValues vs)] s t := by
  obtain rfl := h.config
  have hout := exec_encSym_marker (s := s) (by rw [h.enc]) (by rw [h.enc])
  obtain ⟨t, hfeed, hfed⟩ := feedSymbol_marker (s := afterFiring .encSym _ _ s.dec s) hwf h.frame s.config.encMarker
    (h.prev_ne_marker _) hfit
  have hcarry := (carrySymbol_of_returned hout rfl).trans hfeed
  have hdel := (delivers_encSym _).trans hfed.delivers
  refine ⟨t, hcarry, ⟨hdel.config, ?_, ?_, hfed.frame⟩, hdel⟩
  · rw [hfed.enc, hfed.prev]; rfl
  · rw [hfed.enc]; rfl

/-! ### One frame carried -/

/-- The four chunks of a byte, most significant first, are the byte (R54, R55). -/
theorem packValues_chunks (b : Byte) : packValues [chunk 0 b, chunk 1 b, chunk 2 b, chunk 3 b] = b := by
  have hb := b.isLt
  refine (packValues_last_four [] _ _ _ _).trans (BitVec.eq_of_toNat_eq ?_)
  simp only [append_value_toNat, chunk, BitVec.extractLsb'_toNat, Nat.shiftRight_eq_div_pow]
  omega

theorem carrySymbols_cons {rest : List Nat} (hx : carrySymbol extra s = .next u) :
    carrySymbols (extra :: rest) s = carrySymbols rest u := by
  rw [carrySymbols, hx, andThen_of_next]

/-- The byte is accepted between frames, and the decoder's frame is the repeats carried since the last one. -/
theorem LinkIdle.exec_encByte (h : LinkIdle c n s) (b : Byte) :
    ∃ t, exec (.encByte b) s = .next t ∧ Carrying c b 0#3 (countedRepeats c n) [] t ∧ Delivers [] s t :=
  ⟨_, exec_encByte_idle h.idle b,
    ⟨h.config, by rw [acceptByte, h.prev]; rfl, fun hphase => absurd rfl hphase, h.frame⟩, rfl, rfl, rfl⟩

/-- The five symbols of a byte bring its result: four data symbols with its chunks, then the marker. -/
theorem Carrying.carrySymbols_frame {e₁ e₂ e₃ e₄ e₅ : Nat} (h : Carrying c b 0#3 counted [] s)
    (hwf : c.wellFormed = true) (hfit : counted + countedRepeats c [e₁, e₂, e₃, e₄].sum + 5 ≤ c.decBudget)
    (hnext : countedRepeats c e₅ < c.decBudget) :
    ∃ t, carrySymbols [e₁, e₂, e₃, e₄, e₅] s = .next t ∧ LinkIdle c e₅ t ∧
      Delivers [resultWord (okStatus c.encMarker) 4#4 b] s t := by
  simp only [List.sum_cons, List.sum_nil, countedRepeats_add, countedRepeats_zero] at hfit
  obtain ⟨t₁, hx₁, h₁, hd₁⟩ := h.carrySymbol_data (extra := e₁) hwf (by decide) (by omega)
  obtain ⟨t₂, hx₂, h₂, hd₂⟩ := h₁.carrySymbol_data (extra := e₂) hwf (by decide) (by omega)
  obtain ⟨t₃, hx₃, h₃, hd₃⟩ := h₂.carrySymbol_data (extra := e₃) hwf (by decide) (by omega)
  obtain ⟨t₄, hx₄, h₄, hd₄⟩ := h₃.carrySymbol_data (extra := e₄) hwf (by decide) (by omega)
  obtain ⟨t₅, hx₅, h₅, hd₅⟩ := Carrying.carrySymbol_marker (extra := e₅) h₄ hwf hnext
  refine ⟨t₅, ?_, h₅, ?_⟩
  · rw [carrySymbols_cons hx₁, carrySymbols_cons hx₂, carrySymbols_cons hx₃, carrySymbols_cons hx₄,
      carrySymbols_cons hx₅, carrySymbols]
  · have hdel := (((hd₁.trans hd₂).trans hd₃).trans hd₄).trans hd₅
    obtain ⟨hchunk₁, hchunk₂, hchunk₃⟩ := topChunk_after_shifts b
    rw [hchunk₁, hchunk₂, hchunk₃] at hdel
    rw [← packValues_chunks b]
    exact hdel

/-! ### All frames -/

/-- Between frames the repeats carried since the last one leave room for a frame of five symbols. -/
theorem idlesFit_carried {budget carried : Nat} {frames : List (Byte × List Nat)}
    (h : idlesFit budget carried frames = true) : carried + 5 ≤ budget := by
  cases frames with
  | nil => exact of_decide_eq_true h
  | cons f rest =>
    simp only [idlesFit, Bool.and_eq_true, decide_eq_true_eq] at h
    omega

theorem countedRepeats_fit (hb : 5 ≤ c.decBudget) (h : c.idleCounts = true → n + 5 ≤ c.decBudget) :
    countedRepeats c n + 5 ≤ c.decBudget := by
  unfold countedRepeats
  split
  case isTrue hidle => exact h hidle
  case isFalse => rwa [Nat.zero_add]

/-- From a link between frames every byte comes back, and the link is between frames again. -/
theorem LinkIdle.loopback {frames : List (Byte × List Nat)} (h : LinkIdle c n s) (hwf : c.wellFormed = true)
    (hb : 5 ≤ c.decBudget) (hlen : ∀ f ∈ frames, f.2.length = 5)
    (hfit : c.idleCounts = true → idlesFit c.decBudget n frames = true) :
    ∃ t m, loopback frames s = .next t ∧ LinkIdle c m t ∧
      Delivers (frames.map fun f => resultWord (okStatus c.encMarker) 4#4 f.1).reverse s t := by
  induction frames generalizing s n with
  | nil => exact ⟨s, n, rfl, h, .refl s⟩
  | cons f rest ih =>
    obtain ⟨b, extras⟩ := f
    obtain ⟨hfive, hrestlen⟩ := List.forall_mem_cons.mp hlen
    match extras, hfive with
    | [e₁, e₂, e₃, e₄, e₅], _ =>
      simp only [idlesFit, Bool.and_eq_true, decide_eq_true_eq] at hfit
      have hframe := countedRepeats_fit hb fun hidle => (hfit hidle).1
      have hnext : countedRepeats c e₅ + 5 ≤ c.decBudget :=
        countedRepeats_fit hb fun hidle => idlesFit_carried (hfit hidle).2
      rw [countedRepeats_add] at hframe
      obtain ⟨t₁, hx₁, hcarrying, hd₁⟩ := h.exec_encByte b
      obtain ⟨t₂, hx₂, hidle, hd₂⟩ := hcarrying.carrySymbols_frame (e₅ := e₅) hwf hframe (by omega)
      obtain ⟨t, m, hrest, hend, hd⟩ := ih hidle hrestlen fun hidle => (hfit hidle).2
      refine ⟨t, m, ?_, hend, ?_⟩
      · rw [Machine.loopback, hx₁, andThen_of_next, hx₂, andThen_of_next, hrest]
      · rw [List.map_cons, List.reverse_cons]
        exact (hd₁.trans hd₂).trans hd

theorem linkIdle_of_linkReady (hinv : MachineInv s) (h : linkReady s) : LinkIdle s.config 0 s := by
  obtain ⟨hprev, hidle, hcount, hopen⟩ := h
  refine ⟨rfl, hprev, hidle, ?_⟩
  rw [countedRepeats_zero]
  exact frameSoFar_of_between hinv hopen hcount

/-- Settles O47: an induction over the frames, from a link between frames to a link between frames. -/
theorem loopbackReturnsTheBytes : Obligations.LoopbackReturnsTheBytes := by
  unfold Obligations.LoopbackReturnsTheBytes
  intro s frames hinv hready hb hlen hfit
  obtain ⟨t, n, hrun, hend, hdel⟩ := (linkIdle_of_linkReady hinv hready).loopback hinv.config hb hlen hfit
  exact ⟨t, hrun, hdel.results, hdel.waiting, hend.prev, hend.idle, hend.frame.no_result⟩

end Sys2Proof.Machine
end

section
namespace Sys2Proof.Machine

/-! With nothing to fire, a step holds all state (R216). -/

variable {s : State}

/-- Where no held offer is enabled and none is to come, nothing is taken up (log entry 16). -/
theorem step_idle (hwait : ∀ i ∈ s.host.waiting, enabled i s = false) (hprog : s.host.program = []) :
    step s = .next s := by
  simp only [step, fetch, firstEnabled_eq_none hwait, hprog]

/-- Settles O8: no held offer is enabled and no offer is to come, so the step is idle. -/
theorem stepHoldsAllState : Obligations.StepHoldsAllState := by
  unfold Obligations.StepHoldsAllState
  intro s hwait hprog
  exact step_idle hwait hprog

end Sys2Proof.Machine
end

section
namespace Sys2Proof.Machine

/-! The causes of `ERR_FRAMING` (R202): what the decoder's register writes must meet to leave one where no result waited. -/

variable {c : Config} {d : Decoder} {x : Symbol}

/-- A result with the status `ERR_FRAMING` waits. -/
def FramingError (d : Decoder) : Prop := d.resValid = true ∧ d.resStatus = .errFraming

theorem not_framingError_of_open (hopen : d.resValid = false) : ¬FramingError d := fun ⟨hset, _⟩ =>
  Bool.eq_false_iff.mp hopen hset

theorem framingError_afterFrameEnd (x : Symbol) (st : Status) (a : Byte) (n : BitVec 4) :
    FramingError (afterFrameEnd x st a n) ↔ st = .errFraming :=
  and_iff_right rfl

/-- A counted transition leaves `ERR_FRAMING` exactly at the budget (R171). -/
theorem framingError_countTransition_iff (hopen : d.resValid = false) (budget : Nat) (a : Byte) (n : BitVec 4) :
    FramingError (countTransition budget a n d) ↔ d.count.toNat + 1 = budget := by
  by_cases hat : d.count.toNat + 1 = budget
  · rw [countTransition_at hat, finish_eq_afterFrameEnd]
    exact iff_of_true ((framingError_afterFrameEnd ..).mpr rfl) hat
  · rw [countTransition_below hat]
    exact iff_of_false (not_framingError_of_open hopen) hat

theorem framingError_repeat_iff (hopen : d.resValid = false) :
    FramingError (consumeSymbol c d.prev d) ↔ d.count.toNat + 1 = c.decBudget ∧ c.idleCounts = true := by
  cases hidle : c.idleCounts with
  | true => rw [consumeSymbol_counted_idle hidle, framingError_countTransition_iff hopen, and_iff_left rfl]
  | false =>
    rw [consumeSymbol_uncounted_idle hidle]
    exact iff_of_false (not_framingError_of_open hopen) fun ⟨_, hcounts⟩ => nomatch hcounts

theorem not_framingError_marker (m : Marker) (hne : d.prev ≠ markerSymbol m) :
    ¬FramingError (consumeSymbol c (markerSymbol m) d) := by
  rw [consumeSymbol_marker c m hne, framingError_afterFrameEnd]
  cases m with
  | mark1 => exact Status.noConfusion
  | mark2 => exact Status.noConfusion

/-- A marker or `Closed` that is no repeat ends the frame with another status (R171). -/
theorem not_framingError_nonData (hx : isData x = false) (hne : x ≠ d.prev) : ¬FramingError (consumeSymbol c x d) := by
  obtain rfl | rfl | rfl := isData_eq_false_iff.mp hx
  · rw [consumeSymbol_closed c hne.symm, framingError_afterFrameEnd]
    exact Status.noConfusion
  · exact not_framingError_marker .mark1 hne.symm
  · exact not_framingError_marker .mark2 hne.symm

/-- A consumed symbol leaves `ERR_FRAMING` exactly where it is counted and brings the count to the budget (R171, R202). -/
theorem framingError_consumeSymbol_iff (hc : c.symbolCode.wellFormed = true) (hopen : d.resValid = false) :
    FramingError (consumeSymbol c x d) ↔ d.count.toNat + 1 = c.decBudget ∧
      (x = d.prev ∧ c.idleCounts = true ∨ x ≠ d.prev ∧ isData x = true) := by
  by_cases hrepeat : x = d.prev
  · subst hrepeat
    simp [framingError_repeat_iff hopen]
  · cases hx : isData x with
    | true =>
      rw [consumeSymbol_data hc hx hrepeat, framingError_countTransition_iff (d := { d with prev := x }) hopen]
      simp [hrepeat]
    | false => simp [not_framingError_nonData hx hrepeat, hrepeat]

/-- A flush leaves `ERR_FRAMING` exactly in a frame (R172). -/
theorem framingError_flushFrame_iff (hopen : d.resValid = false) : FramingError (flushFrame d) ↔ d.count ≠ 0#4 := by
  refine ⟨fun ⟨hset, _⟩ => (flushFrame_ends hopen hset).1, fun hcount => ?_⟩
  rw [flushFrame_open hcount, finish_eq_afterFrameEnd, framingError_afterFrameEnd]

/-- Settles O42: only a `DEC_SYM` or a `DEC_FLUSH` makes a result wait, and each leaves `ERR_FRAMING` by its own cause. -/
theorem framingErrorCauses : Obligations.FramingErrorCauses := by
  unfold Obligations.FramingErrorCauses
  intro i s t hwf hx hopen
  obtain ⟨-, -, hc⟩ := Config.wellFormed_iff.mp hwf
  constructor
  · rintro ⟨hset, hstatus⟩
    obtain ⟨-, rfl⟩ | ⟨-, rfl⟩ := exec_next hx
    · obtain ⟨k, rfl⟩ | rfl := decSym_or_flush_of_sets_resValid hopen hset
      · exact .inl ⟨sym s.config.symbolCode k, by rw [code_sym hc],
          (framingError_consumeSymbol_iff hc hopen).mp ⟨hset, hstatus⟩⟩
      · exact .inr ⟨rfl, (framingError_flushFrame_iff hopen).mp ⟨hset, hstatus⟩⟩
    · exact absurd ⟨hset, hstatus⟩ (not_framingError_of_open (d := (s.hold i).dec) hopen)
  · rintro (⟨x, rfl, hcause⟩ | ⟨rfl, hcount⟩)
    · obtain rfl := Host.Outcome.next.inj ((exec_decSym_consumes hc hopen x).symm.trans hx)
      exact (framingError_consumeSymbol_iff hc hopen).mpr hcause
    · obtain rfl := Host.Outcome.next.inj ((exec_decFlush_open hopen).symm.trans hx)
      exact (framingError_flushFrame_iff hopen).mpr hcount

end Sys2Proof.Machine
end

section
namespace Sys2Proof.Machine

/-! The cycle after an accepted byte (R242): the encoder holds the byte at phase 0 and offers its first symbol. -/

variable {c : Config} {p : PortInputs} {s : State}

/-- An edge with `rst = 0` at which an idle encoder accepts a byte, after a channel state offered with it (R87, R238). -/
theorem clockEdge_accepts_byte (hr : p.rst = false) (hidle : s.enc.busy = false) (hoffered : p.encInValid = true) :
    ∃ t, clockEdge p s = .next t ∧ t.config = s.config ∧
      t.enc = acceptByte p.encInByte
        (if p.encPrevLoad = true then loadEncPrev (sym s.config.symbolCode p.encPrevIn) s.enc else s.enc) := by
  refine ⟨_, clockEdge_eq_fireAll hr, ?_, ?_⟩
  · rw [fireAll_config, fireAll_config, sampleOutputs_config]
  · obtain ⟨henc, -⟩ := encoder_at_edge_idle (p := p) hidle
    rw [fireAll_decoderOps_enc decoderEdgeOps_are_decoderOps, henc, if_pos hoffered, if_pos hoffered, hoffered]
    split <;> rfl

/-- The first symbol of an accepted byte carries its top chunk (R130, R131). -/
theorem encNext_acceptByte (hc : c.symbolCode.wellFormed = true) (b : Byte) (e : Encoder) :
    encNext c (acceptByte b e) = emit (topChunk b) e.prev :=
  encNext_data hc (by decide : 0#3 < 4#3)

/-- Settles O58: after the edge the encoder is busy at phase 0, so its port shows the first symbol of the byte. -/
theorem firstSymbolOfferedAfterByte : Obligations.FirstSymbolOfferedAfterByte := by
  unfold Obligations.FirstSymbolOfferedAfterByte
  intro p q s hc hr hq hidle hoffered
  obtain ⟨t, hedge, hconfig, henc⟩ := clockEdge_accepts_byte hr hidle hoffered
  have hvalid : encOutValid q t = true := encOutValid_iff.mpr ⟨hq, congrArg Encoder.busy henc⟩
  refine ⟨t, hedge, hvalid, ?_⟩
  rw [encOutSym_of_valid hvalid, hconfig, henc, encNext_acceptByte hc]
  rfl

end Sys2Proof.Machine
end
